-- ==== Sys2Proof/Word.lean ====
section
/-! DEFINITION. The words that cross the block's interface and the names of its data model: the fixed widths
(spec/00_scope.md R8), the input vector (10_state.md R23), the output vector (R24), the five class tags (R29) and
FormatError (60_exceptions.md R130). -/

namespace Sys2Proof

/-- A 32-bit pattern or a binary32 datum (10_state.md R26, 30_encoding.md R61). -/
abbrev Word := BitVec 32

/-- The 8-bit code on one character slot (10_state.md R23, 30_encoding.md R56). -/
abbrev CharCode := BitVec 8

/-- Width of the sign field (00_scope.md R8). -/
def W_SIGN : Nat := 1

/-- Width of the exponent field (00_scope.md R8). -/
def W_EXP : Nat := 8

/-- Width of the mantissa field (00_scope.md R8). -/
def W_MANT : Nat := 23

/-- The exponent bias (00_scope.md R8). -/
def BIAS : Nat := 127

/-- The fixed exponent of a denormalized value (00_scope.md R8). -/
def DENORMAL_EXPONENT : Int := -126

/-- The largest pattern value (00_scope.md R8). -/
def PATTERN_MAX : Nat := 0xFFFFFFFF

/-- The input ports (10_state.md R23). `txt` lists the character slots, `txt[0]` first (20_memory.md R44). -/
structure InputVector where
  inSel  : BitVec 2
  inWord : Word
  txtLen : BitVec 8
  txt    : List CharCode
deriving DecidableEq, Repr

/-- The output ports (10_state.md R24), each under its own name. -/
structure OutputVector where
  patValid    : Bool
  pat         : Word
  fout        : Word
  sign        : BitVec 1
  exp         : BitVec 8
  mant        : BitVec 23
  cls         : BitVec 3
  unbExp      : BitVec 9
  mval        : Word
  recon       : Word
  reconValid  : Bool
  err         : Bool
  errKind     : BitVec 2
  errPosValid : Bool
  errPos      : BitVec 8
deriving DecidableEq, Repr

/-- The five class tags, in the source's order (10_state.md R29, 30_encoding.md R58). -/
inductive Classification where
  | normal
  | zero
  | denormalized
  | infinity
  | nan
deriving DecidableEq, Repr

/-- The kinds of FormatError, in the source's order (60_exceptions.md R130, 30_encoding.md R59). -/
inductive FormatErrorKind where
  | wrongLength
  | invalidDigit
  | overflow
deriving DecidableEq, Repr

/-- `FormatError(kind, pos)` as the input stage raises it (00_scope.md R12): `position` is an index or none. -/
structure ParseError where
  kind     : FormatErrorKind
  position : Option Nat
deriving DecidableEq, Repr

/-- The structured error with its `input` member, which is the input vector the host presented
(60_exceptions.md R130, R136). -/
structure FormatError where
  kind     : FormatErrorKind
  input    : InputVector
  position : Option Nat
deriving DecidableEq, Repr

end Sys2Proof
end

