-- ==== Sys2Proof/Config.lean ====
section
/-! DEFINITION. The implementation parameters (spec/00_scope.md R9, 20_memory.md R41) and the one free value of
the model. -/

namespace Sys2Proof

/-- The build-time parameter that rules read: `TXT_MAX`, the number of character slots (00_scope.md R9). -/
structure Config where
  txtMax : Nat
deriving DecidableEq, Repr

/-- `TXT_MAX` is an integer in 34..255 (00_scope.md R9). -/
abbrev Config.wf (c : Config) : Prop := 34 ≤ c.txtMax ∧ c.txtMax ≤ 255

/-- The reference configuration, `TXT_MAX` = 64 (00_scope.md R9). -/
def Config.reference : Config := { txtMax := 64 }

/-- `T_PD`, the propagation delay: OPEN in 00_scope.md R9, in a unit the spec does not give; read by no rule and by
no definition of this model (log 10). -/
opaque Config.tPd : Nat

/-- `DECOMP_BASE`, where the platform places the block: OPEN in 20_memory.md R41; read by no rule and by no
definition of this model (log 10). -/
opaque Config.decompBase : Nat

/-- FREE VALUE (log 7): `recon` when `pat_valid` is 1 and the class code on the wire `cls` is one of 0b101, 0b110,
0b111, for which 42_reconstructor.md R112 states no drive. 30_encoding.md R63 says the block never drives such a
code. The arguments are the reconstructor's operands `cls`, `sign`, `exp`, `mant`. -/
opaque Config.reconUndriven : BitVec 3 → BitVec 1 → BitVec 8 → BitVec 23 → Word

end Sys2Proof
end

