-- ==== Sys2Proof/Syntax.lean ====
section
/-! DEFINITION. The nine operations of spec/opcode_table.json, one constructor each (spec/00_scope.md R4). -/

namespace Sys2Proof

/-- The operations of the block.
The three input-stage operations carry the operands their rule reads from the input ports (30_encoding.md R52).
For a text operation the operand is `txt[0 .. txt_len - 1]`, so `txt_len` is the length of the list.
The six output-stage operations have no operand of their own: they read output ports (10_state.md R25). -/
inductive Instr where
  /-- ENCODE (40_decomposer.md R80). -/
  | encode (inWord : Word)
  /-- DECODE_BIN (40_decomposer.md R82). -/
  | decodeBin (text : List CharCode)
  /-- DECODE_HEX (40_decomposer.md R83). -/
  | decodeHex (text : List CharCode)
  /-- TO_FLOAT (40_decomposer.md R86). -/
  | toFloat
  /-- FIELDS (40_decomposer.md R87). -/
  | fields
  /-- CLASSIFY (41_classifier.md R100). -/
  | classify
  /-- MANTISSA_VALUE (42_reconstructor.md R110). -/
  | mantissaValue
  /-- UNBIASED_EXPONENT (42_reconstructor.md R111). -/
  | unbiasedExponent
  /-- RECONSTRUCT (42_reconstructor.md R112). -/
  | reconstruct
deriving DecidableEq, Repr

end Sys2Proof
end

