-- ==== Sys2Proof/WellFormed.lean ====
section
/-! DEFINITION. Which operations and which input vectors a host can present to a block built with a given `TXT_MAX`
(spec/10_state.md R23, 20_memory.md R46, 70_reset_and_hazards.md R151). -/

namespace Sys2Proof

/-- A text fits the text port: `txt_len` is 0 to `TXT_MAX` (10_state.md R23). The other operations have no operand
that could be ill formed. -/
def Instr.wellFormed (c : Config) : Instr → Bool
  | .encode _         => true
  | .decodeBin text   => decide (text.length ≤ c.txtMax)
  | .decodeHex text   => decide (text.length ≤ c.txtMax)
  | .toFloat          => true
  | .fields           => true
  | .classify         => true
  | .mantissaValue    => true
  | .unbiasedExponent => true
  | .reconstruct      => true

/-- The vector has exactly the block's `TXT_MAX` character slots (10_state.md R23, 20_memory.md R46). -/
def InputVector.wellFormed (c : Config) (v : InputVector) : Bool := decide (v.txt.length = c.txtMax)

/-- The vector is not one the model refuses (10_state.md R31, 70_reset_and_hazards.md R151): `in_sel` ≠ 0b11, and
`txt_len` ≤ `TXT_MAX` when `in_sel` selects a text operation. -/
def InputVector.legal (c : Config) (v : InputVector) : Bool :=
  v.inSel != 3 && (v.inSel == 0 || decide (v.txtLen.toNat ≤ c.txtMax))

end Sys2Proof
end

