-- ==== Sys2Proof/Decode.lean ====
section
/-! DEFINITION. From the input ports to an operation and back (spec/30_encoding.md R52, R53, R54, R62, R67).
`decode` reads the ports; `encode` writes the canonical input vector of R54; `canonicalForm` is R54's bit string and
`parseCanonical` reads it, rejecting by name. -/

namespace Sys2Proof

/-- Why a decoder gives no operation. -/
inductive DecodeError where
  /-- `in_sel` = 0b11 (30_encoding.md R62). -/
  | reservedSelector
  /-- A canonical form of fewer than 42 bits (30_encoding.md R54). -/
  | truncated
  /-- The bits after `txt_len` are not exactly 8·`txt_len` bits (30_encoding.md R54). -/
  | textLengthMismatch
  /-- An ignored port does not have the value the canonical form gives it (30_encoding.md R54). -/
  | notCanonical
deriving DecidableEq, Repr

/-! ### Reading the ports -/

/-- The first `n` character slots. A slot missing from the list reads as 0x00 (log 6); a vector with `TXT_MAX` slots
and `txt_len` ≤ `TXT_MAX` misses none. -/
def readSlots : Nat → List CharCode → List CharCode
  | 0, _           => []
  | n + 1, []      => 0 :: readSlots n []
  | n + 1, c :: cs => c :: readSlots n cs

/-- The text operand `txt[0 .. txt_len - 1]` (30_encoding.md R52): the slots at or above `txt_len` are not read. -/
def InputVector.text (v : InputVector) : List CharCode := readSlots v.txtLen.toNat v.txt

/-- The input-stage operation that `in_sel` selects, with the ports it reads (30_encoding.md R52); 0b11 is reserved
(R62). -/
def decode (v : InputVector) : Except DecodeError Instr :=
  if v.inSel = 0b00#2 then .ok (.encode v.inWord)
  else if v.inSel = 0b01#2 then .ok (.decodeBin v.text)
  else if v.inSel = 0b10#2 then .ok (.decodeHex v.text)
  else .error .reservedSelector

/-- The six output-stage operations, in an order in which each one's operand wires are driven before it reads them
(10_state.md R25; the order cannot be observed, R32). -/
def outputStage : List Instr :=
  [.toFloat, .fields, .classify, .mantissaValue, .unbiasedExponent, .reconstruct]

/-- Everything one transaction performs (30_encoding.md R67): the input-stage operation that matches, then all six
output-stage operations. -/
def decodeTransaction (v : InputVector) : Except DecodeError (List Instr) :=
  match decode v with
  | .ok i    => .ok (i :: outputStage)
  | .error e => .error e

/-- One row of the opcode map over `in_sel` (30_encoding.md R67). -/
structure OpcodeRow where
  mnemonic  : String
  matchBits : BitVec 2
  mask      : BitVec 2
deriving DecidableEq, Repr

/-- The opcode map: the three input-stage rows (30_encoding.md R67). -/
def inputRows : List OpcodeRow :=
  [ ⟨"ENCODE", 0b00#2, 0b11#2⟩, ⟨"DECODE_BIN", 0b01#2, 0b11#2⟩, ⟨"DECODE_HEX", 0b10#2, 0b11#2⟩ ]

/-- The opcode map: the six output-stage rows, whose mask is 0 (30_encoding.md R67). -/
def outputRows : List OpcodeRow :=
  [ ⟨"TO_FLOAT", 0#2, 0#2⟩, ⟨"FIELDS", 0#2, 0#2⟩, ⟨"CLASSIFY", 0#2, 0#2⟩, ⟨"MANTISSA_VALUE", 0#2, 0#2⟩,
    ⟨"UNBIASED_EXPONENT", 0#2, 0#2⟩, ⟨"RECONSTRUCT", 0#2, 0#2⟩ ]

/-- A row matches a value of `in_sel`. -/
def OpcodeRow.accepts (r : OpcodeRow) (sel : BitVec 2) : Bool := sel &&& r.mask == r.matchBits

/-- The mnemonics a decoder built from the table alone performs for a value of `in_sel` (30_encoding.md R67): none
when no input-stage row matches. -/
def tableDecode (sel : BitVec 2) : List String :=
  match inputRows.filter (·.accepts sel) with
  | [] => []
  | rs => rs.map (·.mnemonic) ++ (outputRows.filter (·.accepts sel)).map (·.mnemonic)

/-- An operation's mnemonic in spec/opcode_table.json. -/
def Instr.mnemonic : Instr → String
  | .encode _         => "ENCODE"
  | .decodeBin _      => "DECODE_BIN"
  | .decodeHex _      => "DECODE_HEX"
  | .toFloat          => "TO_FLOAT"
  | .fields           => "FIELDS"
  | .classify         => "CLASSIFY"
  | .mantissaValue    => "MANTISSA_VALUE"
  | .unbiasedExponent => "UNBIASED_EXPONENT"
  | .reconstruct      => "RECONSTRUCT"

/-! ### Writing the ports -/

/-- A text laid on the character slots, the slots above it 0x00. -/
def padSlots (c : Config) (text : List CharCode) : List CharCode :=
  text ++ List.replicate (c.txtMax - text.length) 0

/-- The canonical input vector of an input-stage operation (30_encoding.md R54). An output-stage operation has no
selector (R52), so none stands for it alone (log 8). -/
def encode (c : Config) : Instr → Option InputVector
  | .encode w         => some { inSel := 0b00#2, inWord := w, txtLen := 0, txt := padSlots c [] }
  | .decodeBin text   =>
      some { inSel := 0b01#2, inWord := 0, txtLen := BitVec.ofNat 8 text.length, txt := padSlots c text }
  | .decodeHex text   =>
      some { inSel := 0b10#2, inWord := 0, txtLen := BitVec.ofNat 8 text.length, txt := padSlots c text }
  | .toFloat          => none
  | .fields           => none
  | .classify         => none
  | .mantissaValue    => none
  | .unbiasedExponent => none
  | .reconstruct      => none

/-! ### The canonical form as a string of bits (30_encoding.md R54), most significant bit first (00_scope.md R10) -/

/-- The bits of a value, most significant first. -/
def bitsOf {n : Nat} (v : BitVec n) : List Bool := (List.range n).map fun k => v.getLsbD (n - 1 - k)

/-- The value of a string of bits, most significant first. -/
def natOfBits (bits : List Bool) : Nat := bits.foldl (fun acc b => 2 * acc + b.toNat) 0

/-- `in_sel ‖ in_word ‖ txt_len ‖ txt[0] ‖ … ‖ txt[txt_len - 1]` with the ignored ports as R54 says
(30_encoding.md R54). -/
def canonicalForm : Instr → Option (List Bool)
  | .encode w         => some (bitsOf 0b00#2 ++ bitsOf w ++ bitsOf 0#8)
  | .decodeBin text   =>
      some (bitsOf 0b01#2 ++ bitsOf 0#32 ++ bitsOf (BitVec.ofNat 8 text.length) ++ text.flatMap bitsOf)
  | .decodeHex text   =>
      some (bitsOf 0b10#2 ++ bitsOf 0#32 ++ bitsOf (BitVec.ofNat 8 text.length) ++ text.flatMap bitsOf)
  | .toFloat          => none
  | .fields           => none
  | .classify         => none
  | .mantissaValue    => none
  | .unbiasedExponent => none
  | .reconstruct      => none

/-- The number of characters of an operation's text operand (30_encoding.md R54). -/
def Instr.textLength : Instr → Nat
  | .encode _         => 0
  | .decodeBin text   => text.length
  | .decodeHex text   => text.length
  | .toFloat          => 0
  | .fields           => 0
  | .classify         => 0
  | .mantissaValue    => 0
  | .unbiasedExponent => 0
  | .reconstruct      => 0

/-- Cut a string of bits into `n` characters of 8 bits. -/
def charsOfBits : Nat → List Bool → List CharCode
  | 0, _        => []
  | n + 1, bits => BitVec.ofNat 8 (natOfBits (bits.take 8)) :: charsOfBits n (bits.drop 8)

/-- Read a canonical form (30_encoding.md R54). Total on every string of bits: a string that is not exactly canonical
is rejected by name (log 14, DESIGN CHOICE: R54 says nothing of such strings). -/
def parseCanonical (bits : List Bool) : Except DecodeError Instr :=
  if bits.length < 42 then .error .truncated
  else
    let sel  := natOfBits (bits.take 2)
    let word := natOfBits ((bits.drop 2).take 32)
    let len  := natOfBits ((bits.drop 34).take 8)
    let rest := bits.drop 42
    if sel = 3 then .error .reservedSelector
    else if rest.length ≠ 8 * len then .error .textLengthMismatch
    else if sel = 0 then
      if len = 0 then .ok (.encode (BitVec.ofNat 32 word)) else .error .notCanonical
    else if word ≠ 0 then .error .notCanonical
    else if sel = 1 then .ok (.decodeBin (charsOfBits len rest))
    else .ok (.decodeHex (charsOfBits len rest))

/-! ### The numbering of spec/opcode_table.json -/

/-- The low 8·`n` bits of a number as `n` characters, the first in the lowest bits. -/
def charsOfNat : Nat → Nat → List CharCode
  | 0, _     => []
  | n + 1, w => BitVec.ofNat 8 w :: charsOfNat n (w / 2 ^ 8)

/-- The ports laid out as one number whose bits 1..0 are `in_sel`, as the opcode table numbers them. The operand ports
follow above: bits 33..2 `in_word`, bits 41..34 `txt_len`, then slot k in bits 49 + 8·k .. 42 + 8·k (log 9). -/
def InputVector.ofTableWord (slots w : Nat) : InputVector :=
  { inSel  := BitVec.ofNat 2 w
    inWord := BitVec.ofNat 32 (w / 2 ^ 2)
    txtLen := BitVec.ofNat 8 (w / 2 ^ 34)
    txt    := charsOfNat slots (w / 2 ^ 42) }

/-- The operation `decode` reads from ports whose bits, numbered as the opcode table numbers them, are the low `nbits`
bits of `w` and 0 above (log 8, log 9). -/
def decodeTableWord (nbits w : Nat) : Option Instr :=
  (decode (InputVector.ofTableWord Config.reference.txtMax (w % 2 ^ nbits))).toOption

end Sys2Proof
end

