-- ==== Sys2Proof/Machine/State.lean ====
section
/-! DEFINITION. The state of the machine as plain data, its reset, and the reasons a step can stop.
The block stores nothing (spec/10_state.md R20): what State holds are the block's ports (R23, R24), its build
parameter (00_scope.md R9) and the vectors the host will present next (log 1, log 2, log 5). -/

namespace Sys2Proof.Machine

/-- The block has no fault: no behaviour of it is a `fault` or `stuck` (93_implementation_defined.md; 60_exceptions.md
R137). No constructor, so no step faults. -/
inductive Fault where
deriving DecidableEq, Repr

/-- Why the model gives an input vector no meaning. -/
inductive Refusal where
  /-- Raised by an arm of `exec` whose operation has no meaning yet; no arm raises it now. Safe. -/
  | notModelled (mnemonic : String)
  /-- Raised by `transact` when `in_sel` = 0b11 (30_encoding.md R62, 10_state.md R31). Safe: the model stops. -/
  | reservedSelector
  /-- Raised by DECODE_BIN and DECODE_HEX when `txt_len` > `TXT_MAX` (10_state.md R31). Safe: the model stops. -/
  | textTooLong
deriving DecidableEq, Repr

/-- The ports of the block (10_state.md R23, R24), its build parameter (00_scope.md R9), and the input vectors the host
will present next, the next one first (the model's own field, log 2). -/
structure State where
  cfg     : Config
  inp     : InputVector
  out     : OutputVector
  pending : List InputVector
deriving DecidableEq, Repr

/-- The block has no reset (70_reset_and_hazards.md R150). DESIGN CHOICE (log 4, log 5): the reference configuration,
every input port 0, and the output ports as R150 gives them once settled for that input vector, which are the outputs
of `ENC 0x00000000` in 95_test_vectors.md section 2. -/
def State.reset : State :=
  { cfg     := Config.reference
    inp     := { inSel := 0, inWord := 0, txtLen := 0, txt := List.replicate 64 0 }
    out     :=
      { patValid := true, pat := 0, fout := 0, sign := 0, exp := 0, mant := 0, cls := 0b001#3, unbExp := 0x181#9,
        mval := 0x3F800000#32, recon := 0, reconValid := false, err := false, errKind := 0, errPosValid := false,
        errPos := 0 }
    pending := [] }

end Sys2Proof.Machine
end

