-- ==== Sys2Proof/Machine/Operands.lean ====
section
/-! DEFINITION. The operand forms: the fields of a pattern (spec/10_state.md R27, 30_encoding.md R50) and the
characters of a text (30_encoding.md R55, R56, R57). -/

namespace Sys2Proof.Machine

/-! ### The fields of a pattern -/

/-- `p[31]` (10_state.md R27). -/
def signOf (p : Word) : BitVec 1 := p.extractLsb' 31 1

/-- `p[30:23]` (10_state.md R27). -/
def expOf (p : Word) : BitVec 8 := p.extractLsb' 23 8

/-- `p[22:0]` (10_state.md R27). -/
def mantOf (p : Word) : BitVec 23 := p.extractLsb' 0 23

/-- `sign ‖ exp ‖ mant` (30_encoding.md R50, 00_scope.md R10). -/
def pack (sign : BitVec 1) (exp : BitVec 8) (mant : BitVec 23) : Word := sign ++ exp ++ mant

/-! ### The characters of a text -/

/-- The value of a binary digit, none for any other code (30_encoding.md R55, R56). -/
def binDigit (c : CharCode) : Option Nat :=
  if c = 0x30#8 then some 0 else if c = 0x31#8 then some 1 else none

/-- The value of a hexadecimal digit, none for any other code (30_encoding.md R56). -/
def hexDigit (c : CharCode) : Option Nat :=
  let k := c.toNat
  if 0x30 ≤ k ∧ k ≤ 0x39 then some (k - 0x30)
  else if 0x41 ≤ k ∧ k ≤ 0x46 then some (k - 0x41 + 10)
  else if 0x61 ≤ k ∧ k ≤ 0x66 then some (k - 0x61 + 10)
  else none

/-- The index at which the hexadecimal digits begin: 2 after `0x` or `0X` at index 0, otherwise 0
(30_encoding.md R57). -/
def hexStart : List CharCode → Nat
  | a :: b :: _ => if a = 0x30#8 ∧ (b = 0x78#8 ∨ b = 0x58#8) then 2 else 0
  | _           => 0

/-- The index of the first character with no digit value, the first character of the list having index `k`
(60_exceptions.md R133, R134). -/
def firstOffending (digit : CharCode → Option Nat) : Nat → List CharCode → Option Nat
  | _, []      => none
  | k, c :: cs => if (digit c).isSome then firstOffending digit (k + 1) cs else some k

/-- The value of a digit string, most significant digit first, as an unbounded integer (20_memory.md R44;
40_decomposer.md R83). -/
def digitsValue (base : Nat) (digit : CharCode → Option Nat) (text : List CharCode) : Nat :=
  text.foldl (fun v c => base * v + (digit c).getD 0) 0

end Sys2Proof.Machine
end

