-- ==== Sys2Proof/Machine/Flags.lean ====
section
/-! DEFINITION. The status outputs (spec/10_state.md R30): the codes on `cls` and `err_kind`, and what a host reads
from the error ports. -/

namespace Sys2Proof.Machine

/-- The code of a class tag on `cls` (30_encoding.md R58). -/
def classCode : Classification → BitVec 3
  | .normal       => 0b000#3
  | .zero         => 0b001#3
  | .denormalized => 0b010#3
  | .infinity     => 0b011#3
  | .nan          => 0b100#3

/-- The tag a code on `cls` stands for; none for the codes that are never driven (30_encoding.md R58, R63). -/
def classOfCode (c : BitVec 3) : Option Classification :=
  if c = 0b000#3 then some .normal
  else if c = 0b001#3 then some .zero
  else if c = 0b010#3 then some .denormalized
  else if c = 0b011#3 then some .infinity
  else if c = 0b100#3 then some .nan
  else none

/-- The code of a FormatError kind on `err_kind` (30_encoding.md R59). -/
def errorCode : FormatErrorKind → BitVec 2
  | .wrongLength  => 0b00#2
  | .invalidDigit => 0b01#2
  | .overflow     => 0b10#2

/-- The kind a code on `err_kind` stands for; none for the code that is never driven (30_encoding.md R59, R63). -/
def errorOfCode (c : BitVec 2) : Option FormatErrorKind :=
  if c = 0b00#2 then some .wrongLength
  else if c = 0b01#2 then some .invalidDigit
  else if c = 0b10#2 then some .overflow
  else none

/-- The FormatError a transaction reports: the ports `err`, `err_kind`, `err_pos_valid`, `err_pos`, and as `input` the
vector on the input ports (60_exceptions.md R130, R134, R136). -/
def reportedError (inp : InputVector) (o : OutputVector) : Option FormatError :=
  if o.err then
    (errorOfCode o.errKind).map fun k =>
      { kind := k, input := inp, position := if o.errPosValid then some o.errPos.toNat else none }
  else none

/-- The result of a transaction as a claim should read it (60_exceptions.md R135): the pattern when `pat_valid` is 1,
otherwise the error. -/
def transactionResult (inp : InputVector) (o : OutputVector) : Except (Option FormatError) Word :=
  if o.patValid then .ok o.pat else .error (reportedError inp o)

end Sys2Proof.Machine
end

