-- ==== Sys2Proof/Machine/Ops.lean ====
section
/-! DEFINITION. The named operations over the ports.
The block has no memory and no register (spec/10_state.md R20, 20_memory.md R40) and no trap (60_exceptions.md R137),
so there is no memory operation and no exception entry; its one error is FormatError, raised by ONE shared operation
(R130, R135), and there is nothing to return from (R138). -/

namespace Sys2Proof.Machine

/-- Write output ports. -/
def State.mapOut (s : State) (f : OutputVector → OutputVector) : State := { s with out := f s.out }

/-- The input stage produced a pattern (60_exceptions.md R130, last sentence; 40_decomposer.md R80 status outputs). -/
def drivePattern (p : Word) (s : State) : State :=
  s.mapOut fun o =>
    { o with pat := p, patValid := true, err := false, errKind := 0b00#2, errPosValid := false, errPos := 0x00#8 }

/-- The input stage raises FormatError (60_exceptions.md R130, R134, R135): the error ports report it and the pattern
is forced to 0x00000000. -/
def raiseFormatError (e : ParseError) (s : State) : State :=
  s.mapOut fun o =>
    { o with
      pat := 0x00000000#32, patValid := false, err := true, errKind := errorCode e.kind,
      errPosValid := e.position.isSome, errPos := BitVec.ofNat 8 (e.position.getD 0) }

/-- How an input-stage operation ends: with a pattern or with a FormatError (10_state.md R32). -/
def finishInputStage (r : Except ParseError Word) (s : State) : State :=
  match r with
  | .ok p    => drivePattern p s
  | .error e => raiseFormatError e s

/-- A text operation: refused when the text is longer than the text port (10_state.md R31), otherwise it ends as its
parser says. -/
def runText (parse : List CharCode → Except ParseError Word) (text : List CharCode) (s : State) :
    Host.Outcome State Fault Refusal :=
  if s.cfg.txtMax < text.length then .refused .textTooLong else .next (finishInputStage (parse text) s)

/-- The input vector of the next transaction: the first of the pending ones, or, when none is pending, the one the host
still holds on the ports (20_memory.md R46). -/
def nextVector (s : State) : InputVector := s.pending.headD s.inp

/-- The host presents its next input vector (10_state.md R21, 92_eei_decisions.md D2). -/
def present (s : State) : State := { s with inp := nextVector s, pending := s.pending.tail }

/-- The host decides that `v` is the vector it presents next, in the place of the one it would have presented. -/
def presentNext (v : InputVector) (s : State) : State := { s with pending := v :: s.pending.tail }

/-- Go on from a next state; a fault or a refusal stays. -/
def andThen (r : Host.Outcome State Fault Refusal) (f : State → Host.Outcome State Fault Refusal) :
    Host.Outcome State Fault Refusal :=
  match r with
  | .next s    => f s
  | .fault e   => .fault e
  | .refused e => .refused e

end Sys2Proof.Machine
end

