-- ==== Sys2Proof/Machine/Classifier.lean ====
section
/-! DEFINITION. The sub-block `fp32_classifier` (spec/41_classifier.md): CLASSIFY. -/

namespace Sys2Proof.Machine

/-- The five-way classification (41_classifier.md R100). The sign is no operand (R102). -/
def classOf (exp : BitVec 8) (mant : BitVec 23) : Classification :=
  if exp = 255#8 ∧ mant = 0#23 then .infinity
  else if exp = 255#8 ∧ mant ≠ 0#23 then .nan
  else if exp = 0#8 ∧ mant = 0#23 then .zero
  else if exp = 0#8 ∧ mant ≠ 0#23 then .denormalized
  else .normal

/-- CLASSIFY (41_classifier.md R100), coded as 30_encoding.md R58 says. -/
def execClassify (s : State) : Host.Outcome State Fault Refusal :=
  .next (s.mapOut fun o => { o with cls := classCode (classOf o.exp o.mant) })

end Sys2Proof.Machine
end

