-- ==== Sys2Proof/Machine/Codec.lean ====
section
/-! DEFINITION. The Codec's five operations (spec/40_decomposer.md): ENCODE, DECODE_BIN, DECODE_HEX, TO_FLOAT,
FIELDS. -/

namespace Sys2Proof.Machine

/-- DECODE_BIN's pseudocode (40_decomposer.md R82): the length first, then the lowest offending index, then the
pattern, whose bit 31 is the first character. -/
def parseBin (text : List CharCode) : Except ParseError Word :=
  if text.length ≠ 32 then .error ⟨.wrongLength, none⟩
  else
    match firstOffending binDigit 0 text with
    | some k => .error ⟨.invalidDigit, some k⟩
    | none   => .ok (BitVec.ofNat 32 (digitsValue 2 binDigit text))

/-- DECODE_HEX's pseudocode (40_decomposer.md R83): every character after the optional `0x`, then at least one digit,
then the value against 0xFFFFFFFF. The position counts the whole text (60_exceptions.md R134). -/
def parseHex (text : List CharCode) : Except ParseError Word :=
  let start  := hexStart text
  let digits := text.drop start
  match firstOffending hexDigit start digits with
  | some k => .error ⟨.invalidDigit, some k⟩
  | none   =>
    if digits.length = 0 then .error ⟨.wrongLength, none⟩
    else
      let v := digitsValue 16 hexDigit digits
      if PATTERN_MAX < v then .error ⟨.overflow, none⟩ else .ok (BitVec.ofNat 32 v)

/-- ENCODE (40_decomposer.md R80). -/
def execEncode (inWord : Word) (s : State) : Host.Outcome State Fault Refusal := .next (drivePattern inWord s)

/-- DECODE_BIN (40_decomposer.md R82). -/
def execDecodeBin (text : List CharCode) (s : State) : Host.Outcome State Fault Refusal := runText parseBin text s

/-- DECODE_HEX (40_decomposer.md R83). -/
def execDecodeHex (text : List CharCode) (s : State) : Host.Outcome State Fault Refusal := runText parseHex text s

/-- TO_FLOAT (40_decomposer.md R86). -/
def execToFloat (s : State) : Host.Outcome State Fault Refusal :=
  .next (s.mapOut fun o => { o with fout := o.pat })

/-- FIELDS (40_decomposer.md R87). -/
def execFields (s : State) : Host.Outcome State Fault Refusal :=
  .next (s.mapOut fun o => { o with sign := signOf o.pat, exp := expOf o.pat, mant := mantOf o.pat })

end Sys2Proof.Machine
end

