-- ==== Sys2Proof/Machine/Reconstructor.lean ====
section
/-! DEFINITION. The sub-block `fp32_value_reconstructor` (spec/42_reconstructor.md): MANTISSA_VALUE,
UNBIASED_EXPONENT, RECONSTRUCT. -/

namespace Sys2Proof.Machine

/-- `0 ‖ 0b01111111 ‖ mant` (42_reconstructor.md R110): the leading 1 is assumed in every class. -/
def mantissaWord (mant : BitVec 23) : Word := pack 0#1 0b01111111#8 mant

/-- `(zext_9(exp) - 127) mod 2^9` (42_reconstructor.md R111). -/
def unbiasedExponent (exp : BitVec 8) : BitVec 9 := exp.setWidth 9 - 127#9

/-- The drive of `recon` and `recon_valid` (42_reconstructor.md R112). For a class code that is never driven
(30_encoding.md R63) the rule states no `recon`: a free value (log 7); `recon_valid` is 0, since it is 1 exactly for
Normal and Denormalized. -/
def reconstructDrive (patValid : Bool) (sign : BitVec 1) (exp : BitVec 8) (mant : BitVec 23) (cls : BitVec 3) :
    Word × Bool :=
  if patValid = false then (0#32, false)
  else
    match classOfCode cls with
    | some .normal       => (pack sign exp mant, true)
    | some .denormalized => (pack sign 0#8 mant, true)
    | some .zero         => (pack sign 0#8 0#23, false)
    | some .infinity     => (pack sign 255#8 0#23, false)
    | some .nan          => (pack sign 255#8 0x400000#23, false)
    | none               => (Config.reconUndriven cls sign exp mant, false)

/-- MANTISSA_VALUE (42_reconstructor.md R110). -/
def execMantissaValue (s : State) : Host.Outcome State Fault Refusal :=
  .next (s.mapOut fun o => { o with mval := mantissaWord o.mant })

/-- UNBIASED_EXPONENT (42_reconstructor.md R111). -/
def execUnbiasedExponent (s : State) : Host.Outcome State Fault Refusal :=
  .next (s.mapOut fun o => { o with unbExp := unbiasedExponent o.exp })

/-- RECONSTRUCT (42_reconstructor.md R112), reading the wires of 10_state.md R25. -/
def execReconstruct (s : State) : Host.Outcome State Fault Refusal :=
  .next (s.mapOut fun o =>
    { o with
      recon := (reconstructDrive o.patValid o.sign o.exp o.mant o.cls).1
      reconValid := (reconstructDrive o.patValid o.sign o.exp o.mant o.cls).2 })

end Sys2Proof.Machine
end

