-- ==== Sys2Proof/Machine/Dispatch.lean ====
section
/-! DEFINITION. One arm per operation. -/

namespace Sys2Proof.Machine

def exec (i : Instr) (s : State) : Host.Outcome State Fault Refusal :=
  match i with
  | .encode inWord => Sys2Proof.Machine.execEncode inWord s
  | .decodeBin text => Sys2Proof.Machine.execDecodeBin text s
  | .decodeHex text => Sys2Proof.Machine.execDecodeHex text s
  | .toFloat => Sys2Proof.Machine.execToFloat s
  | .fields => Sys2Proof.Machine.execFields s
  | .classify => Sys2Proof.Machine.execClassify s
  | .mantissaValue => Sys2Proof.Machine.execMantissaValue s
  | .unbiasedExponent => Sys2Proof.Machine.execUnbiasedExponent s
  | .reconstruct => Sys2Proof.Machine.execReconstruct s

end Sys2Proof.Machine
end

