-- ==== Sys2Proof/Machine/Transaction.lean ====
section
/-! DEFINITION. One transaction (spec/10_state.md R32, 30_encoding.md R67, 92_eei_decisions.md D2). -/

namespace Sys2Proof.Machine

/-- Perform operations one after another, stopping at the first that does not answer a next state. -/
def runAll : List Instr → State → Host.Outcome State Fault Refusal
  | [], s      => .next s
  | i :: is, s => andThen (exec i s) (runAll is)

/-- One transaction: the host presents its next vector, the input-stage operation that `in_sel` selects is performed,
then all six output-stage operations (30_encoding.md R67). `in_sel` = 0b11 is refused (R62). -/
def transact (s : State) : Host.Outcome State Fault Refusal :=
  match decodeTransaction (nextVector s) with
  | .ok is   => runAll is (present s)
  | .error _ => .refused .reservedSelector

end Sys2Proof.Machine
end

