-- ==== Sys2Proof/Machine/Step.lean ====
section
/-! DEFINITION. The step of the machine: one transaction (spec/92_eei_decisions.md D2). -/

namespace Sys2Proof.Machine

/-- One transaction (10_state.md R31, R32). -/
def step (s : State) : Host.Outcome State Fault Refusal := transact s

/-- `s` with the input vector whose ports, numbered as the opcode table numbers them, are the low `nbits` bits of `w`
(0 above) as the vector the host presents next: the block fetches nothing (10_state.md R21), so this is where the next
operation comes from (log 2, log 9). -/
def State.withFetchWord (s : State) (nbits w : Nat) : State :=
  presentNext (InputVector.ofTableWord s.cfg.txtMax (w % 2 ^ nbits)) s

end Sys2Proof.Machine
end

