-- ==== Sys2Proof/Machine/Notation.lean ====
section
/-! DEFINITION. The transaction notation of listings and programs (spec/30_encoding.md R65, R66) and the two renderings
its pseudo-instructions use. It is a notation only (92_eei_decisions.md D21) and no part of the hardware. -/

namespace Sys2Proof.Machine

/-! ### The renderings of R66 -/

/-- Character k is `1` if bit 31 - k is 1, else `0` (30_encoding.md R66). -/
def binText (w : Word) : List CharCode :=
  (List.range 32).map fun k => if w.getLsbD (31 - k) then 0x31#8 else 0x30#8

/-- The upper-case hexadecimal digit of a value below 16 (30_encoding.md R56). -/
def upperDigit (d : Nat) : CharCode := if d < 10 then BitVec.ofNat 8 (0x30 + d) else BitVec.ofNat 8 (0x41 + d - 10)

/-- The lower-case hexadecimal digit of a value below 16 (30_encoding.md R56). -/
def lowerDigit (d : Nat) : CharCode := if d < 10 then BitVec.ofNat 8 (0x30 + d) else BitVec.ofNat 8 (0x61 + d - 10)

/-- The 8 digits of a pattern, most significant first, leading zeros kept. -/
def hexDigitsOf (digit : Nat → CharCode) (w : Word) : List CharCode :=
  (List.range 8).map fun k => digit (w.toNat / 16 ^ (7 - k) % 16)

/-- `0x` and the 8 upper-case digits (30_encoding.md R66). -/
def hexText (w : Word) : List CharCode := 0x30#8 :: 0x78#8 :: hexDigitsOf upperDigit w

/-! ### One line of a listing (R65). What R65 leaves open about spaces is log 12. -/

/-- Skip spaces. -/
def skipSpaces : List CharCode → List CharCode
  | []      => []
  | c :: cs => if c = 0x20#8 then skipSpaces cs else c :: cs

/-- Nothing is left but spaces and a comment `; text`. -/
def endsLine (cs : List CharCode) : Bool :=
  match skipSpaces cs with
  | []     => true
  | c :: _ => c == 0x3B#8

/-- What follows the given word, none when the line does not begin with it. -/
def afterWord : List CharCode → List CharCode → Option (List CharCode)
  | [], cs           => some cs
  | _ :: _, []       => none
  | w :: ws, c :: cs => if w = c then afterWord ws cs else none

/-- `n` hexadecimal digits: their value and what follows. -/
def readDigits : Nat → Nat → List CharCode → Option (Nat × List CharCode)
  | 0, v, cs          => some (v, cs)
  | _ + 1, _, []      => none
  | n + 1, v, c :: cs =>
    match hexDigit c with
    | some d => readDigits n (16 * v + d) cs
    | none   => none

/-- The constant `0xHHHHHHHH`: its value and what follows. -/
def readConstant (cs : List CharCode) : Option (Word × List CharCode) :=
  match afterWord [0x30#8, 0x78#8] cs with
  | none    => none
  | some ds => (readDigits 8 0 ds).map fun r => (BitVec.ofNat 32 r.1, r.2)

/-- Where the reading of a string stands: in plain characters, after a `\`, after `\x`, after `\xH`. -/
inductive StringPlace where
  | plain
  | escape
  | hexHigh
  | hexLow (high : Nat)
deriving DecidableEq, Repr

/-- The characters of a string up to its closing `"` (0x22), with the escapes `\xHH`, `\"` and `\\` (0x5C), and what
follows. -/
def readString : StringPlace → List CharCode → Option (List CharCode × List CharCode)
  | _, [] => none
  | .plain, c :: cs =>
    if c = 0x22#8 then some ([], cs)
    else if c = 0x5C#8 then readString .escape cs
    else (readString .plain cs).map fun r => (c :: r.1, r.2)
  | .escape, c :: cs =>
    if c = 0x22#8 ∨ c = 0x5C#8 then (readString .plain cs).map fun r => (c :: r.1, r.2)
    else if c = 0x78#8 then readString .hexHigh cs
    else none
  | .hexHigh, c :: cs =>
    match hexDigit c with
    | some a => readString (.hexLow a) cs
    | none   => none
  | .hexLow a, c :: cs =>
    match hexDigit c with
    | some b => (readString .plain cs).map fun r => (BitVec.ofNat 8 (16 * a + b) :: r.1, r.2)
    | none   => none

/-- An operand followed by nothing but a comment. -/
def wholeOperand {α : Type} (r : Option (α × List CharCode)) : Option α :=
  match r with
  | some (a, rest) => if endsLine rest then some a else none
  | none           => none

/-- `ENC ` -/
def wordENC : List CharCode := [0x45, 0x4E, 0x43, 0x20]

/-- `BIN "` -/
def wordBIN : List CharCode := [0x42, 0x49, 0x4E, 0x20, 0x22]

/-- `HEX "` -/
def wordHEX : List CharCode := [0x48, 0x45, 0x58, 0x20, 0x22]

/-- `BINOF ` -/
def wordBINOF : List CharCode := [0x42, 0x49, 0x4E, 0x4F, 0x46, 0x20]

/-- `HEXOF ` -/
def wordHEXOF : List CharCode := [0x48, 0x45, 0x58, 0x4F, 0x46, 0x20]

/-- The operation a line of a listing stands for (30_encoding.md R65, R66): one of the five forms, then an optional
comment. The vector it presents is `encode` of that operation. -/
def assemble (line : List CharCode) : Option Instr :=
  let cs := skipSpaces line
  match afterWord wordENC cs, afterWord wordBIN cs, afterWord wordHEX cs, afterWord wordBINOF cs,
      afterWord wordHEXOF cs with
  | some r, _, _, _, _ => (wholeOperand (readConstant r)).map .encode
  | _, some r, _, _, _ => (wholeOperand (readString .plain r)).map .decodeBin
  | _, _, some r, _, _ => (wholeOperand (readString .plain r)).map .decodeHex
  | _, _, _, some r, _ => (wholeOperand (readConstant r)).map fun w => .decodeBin (binText w)
  | _, _, _, _, some r => (wholeOperand (readConstant r)).map fun w => .decodeHex (hexText w)
  | _, _, _, _, _      => none

end Sys2Proof.Machine
end

