-- ==== Sys2Proof/Machine/Value.lean ====
section
/-! DEFINITION. The exact values the block's words stand for (spec/00_scope.md R11, R13; 42_reconstructor.md R110 to
R113). No value here is rounded, and no step computes one: the ports carry encodings. -/

namespace Sys2Proof.Machine

/-- What a binary32 datum stands for (00_scope.md R13). -/
inductive Datum where
  | number (v : ℚ)
  | zero (negative : Bool)
  | infinity (negative : Bool)
  | nan
deriving DecidableEq, Repr

/-- `(-1)^sign`. -/
def signFactor (sign : BitVec 1) : ℚ := (-1) ^ sign.toNat

/-- The mantissa value `1 + sum over i = 1 .. 23 of bit_i * 2^(-i)`, where `bit_i` is `mant[23 - i]`
(42_reconstructor.md R110, 10_state.md R27). -/
def mantissaValue (mant : BitVec 23) : ℚ :=
  1 + ((List.range 23).map fun j => if mant.getLsbD (22 - j) then (2 : ℚ) ^ (-((j : ℤ) + 1)) else 0).sum

/-- The Normal value `(-1)^sign * 2^(exp - 127) * (1 + mant / 2^23)` (42_reconstructor.md R112). -/
def normalValue (sign : BitVec 1) (exp : BitVec 8) (mant : BitVec 23) : ℚ :=
  signFactor sign * (2 : ℚ) ^ ((exp.toNat : ℤ) - BIAS) * (1 + (mant.toNat : ℚ) / 2 ^ 23)

/-- The Denormalized value `(-1)^sign * 2^(-126) * (mant / 2^23)`, leading bit 0 (42_reconstructor.md R112, R113). -/
def denormalizedValue (sign : BitVec 1) (mant : BitVec 23) : ℚ :=
  signFactor sign * (2 : ℚ) ^ DENORMAL_EXPONENT * ((mant.toNat : ℚ) / 2 ^ 23)

/-- The value the fields encode, per class (42_reconstructor.md R112). -/
def fieldsValue (sign : BitVec 1) (exp : BitVec 8) (mant : BitVec 23) : Classification → Datum
  | .normal       => .number (normalValue sign exp mant)
  | .denormalized => .number (denormalizedValue sign mant)
  | .zero         => .zero (sign == 1#1)
  | .infinity     => .infinity (sign == 1#1)
  | .nan          => .nan

/-- `F32(b)`, the binary32 value function (00_scope.md R13). -/
def f32 (b : Word) : Datum := fieldsValue (signOf b) (expOf b) (mantOf b) (classOf (expOf b) (mantOf b))

end Sys2Proof.Machine
end

