-- ==== Sys2Proof/Machine/Eval.lean ====
section
/-! DEFINITION. The whole block as ONE function from an input vector to a result (spec/10_state.md R31, R32), written
from R32's pseudocode and not from the step: the two are compared by a statement. -/

namespace Sys2Proof.Machine

/-- The pattern stage 2 works on and `pat_valid` (10_state.md R32: on FormatError the forced pattern of
60_exceptions.md R135). -/
def settledPattern : Except ParseError Word → Word × Bool
  | .ok p    => (p, true)
  | .error _ => (0x00000000#32, false)

/-- The error ports `err`, `err_kind`, `err_pos_valid`, `err_pos` (60_exceptions.md R130, R134). -/
def errorPorts : Except ParseError Word → Bool × BitVec 2 × Bool × BitVec 8
  | .ok _    => (false, 0b00#2, false, 0x00#8)
  | .error e => (true, errorCode e.kind, e.position.isSome, BitVec.ofNat 8 (e.position.getD 0))

/-- Every output port as a function of what the input stage found (10_state.md R32). -/
def settledOutputs (r : Except ParseError Word) : OutputVector :=
  let p := (settledPattern r).1
  let valid := (settledPattern r).2
  let cls := classCode (classOf (expOf p) (mantOf p))
  let drive := reconstructDrive valid (signOf p) (expOf p) (mantOf p) cls
  let e := errorPorts r
  { patValid := valid, pat := p, fout := p, sign := signOf p, exp := expOf p, mant := mantOf p, cls := cls,
    unbExp := unbiasedExponent (expOf p), mval := mantissaWord (mantOf p), recon := drive.1, reconValid := drive.2,
    err := e.1, errKind := e.2.1, errPosValid := e.2.2.1, errPos := e.2.2.2 }

/-- The input stage (10_state.md R32): none where the vector is refused (R31). -/
def inputStage (c : Config) (v : InputVector) : Option (Except ParseError Word) :=
  if v.inSel = 0b11#2 then none
  else if v.inSel ≠ 0b00#2 ∧ c.txtMax < v.txtLen.toNat then none
  else if v.inSel = 0b00#2 then some (.ok v.inWord)
  else if v.inSel = 0b01#2 then some (parseBin v.text)
  else some (parseHex v.text)

/-- `eval` (10_state.md R31, R32): none is `Refused`. -/
def eval (c : Config) (v : InputVector) : Option OutputVector := (inputStage c v).map settledOutputs

end Sys2Proof.Machine
end

