-- ==== Sys2Proof/Safety.lean ====
section
/-! DEFINITION. What a claim about every state may rely on: the relations between the output ports that hold in every
settled transaction, and the invariant of the machine. -/

namespace Sys2Proof.Machine

/-- The relations between the output ports of one settled transaction (95_test_vectors.md section 6 and the rules it
names). -/
structure Consistent (o : OutputVector) : Prop where
  /-- 40_decomposer.md R86. -/
  fout_eq_pat : o.fout = o.pat
  /-- 10_state.md R28. -/
  partition : o.sign.toNat * 2 ^ 31 + o.exp.toNat * 2 ^ 23 + o.mant.toNat = o.pat.toNat
  /-- 30_encoding.md R63. -/
  cls_driven : o.cls.toNat ≤ 4
  /-- 30_encoding.md R63. -/
  errKind_driven : o.errKind.toNat ≤ 2
  /-- 60_exceptions.md R130. -/
  err_iff_not_valid : o.err = !o.patValid
  /-- 60_exceptions.md R135. -/
  err_forces_pat : o.err = true → o.pat = 0x00000000#32
  /-- 60_exceptions.md R130. -/
  no_err_no_kind : o.err = false → o.errKind = 0b00#2
  /-- 60_exceptions.md R134. -/
  position_iff_invalidDigit : o.errPosValid = true ↔ o.err = true ∧ o.errKind = 0b01#2
  /-- 60_exceptions.md R134. -/
  no_position_is_zero : o.errPosValid = false → o.errPos = 0x00#8
  /-- 42_reconstructor.md R112. -/
  reconValid_iff : o.reconValid = true ↔ o.patValid = true ∧ (o.cls = 0b000#3 ∨ o.cls = 0b010#3)
  /-- 42_reconstructor.md R114. -/
  recon_eq_pat : o.reconValid = true → o.recon = o.pat

/-- Every vector the host holds or will present has exactly `TXT_MAX` slots, and `TXT_MAX` is in its range
(00_scope.md R9, 10_state.md R23, 20_memory.md R46). -/
structure PortsFit (s : State) : Prop where
  cfg : s.cfg.wf
  inp : s.inp.wellFormed s.cfg = true
  pending : ∀ v ∈ s.pending, v.wellFormed s.cfg = true

/-- The output ports hold what `eval` gives for the vector on the input ports (10_state.md R31, 20_memory.md R46). -/
def Settled (s : State) : Prop := eval s.cfg s.inp = some s.out

/-- A recorded position is the index of a character slot (60_exceptions.md R134: `k < TXT_MAX`). -/
def PositionInText (s : State) : Prop :=
  s.out.errPosValid = true → s.out.errPos.toNat < s.inp.txtLen.toNat ∧ s.out.errPos.toNat < s.cfg.txtMax

/-- The invariant of the machine. -/
structure Inv (s : State) : Prop where
  ports : PortsFit s
  settled : Settled s
  consistent : Consistent s.out
  position : PositionInText s

/-- What a host samples after a step: the settled output ports, none where the step answers no next state
(20_memory.md R46). -/
def sampled (r : Host.Outcome State Fault Refusal) : Option OutputVector :=
  match r with
  | .next s    => some s.out
  | .fault _   => none
  | .refused _ => none

/-- A safe run: the vector the host presents next is legal, so the next step is not refused (70_reset_and_hazards.md
R151). -/
def SafeNext (s : State) : Prop := (nextVector s).legal s.cfg = true

end Sys2Proof.Machine
end

