-- ==== Sys2Proof/Certificates/Slice0/Obligations.lean ====
section
/-! DEFINITION. The statements about the machine, one definition each. Where a docstring names a decision D<n>, the
statement rests on the spec's own choice of 92_eei_decisions.md; where it names a log entry, on the model's. -/

open Sys2Proof Sys2Proof.Machine

/-! ### Encodings -/

/-- The words of the opcode table (30_encoding.md R52, decision D4) and three transactions written out from
95_test_vectors.md E8 and P3 read as the operations they stand for; 0b11 reads as none. The places of the operand bits
above bit 1 are the model's (log 9). -/
def Obligations.SpecWordsDecode : Prop :=
  decodeTableWord 8 0b00 = some (.encode 0#32) ∧ decodeTableWord 8 0b01 = some (.decodeBin []) ∧
  decodeTableWord 8 0b10 = some (.decodeHex []) ∧ decodeTableWord 8 0b11 = none ∧
  decodeTableWord 40 (0x3F800000 * 4) = some (.encode 0x3F800000#32) ∧
  decodeTableWord 72 (0b01 + 3 * 2 ^ 34 + (0x31 + 0x30 * 2 ^ 8 + 0x31 * 2 ^ 16) * 2 ^ 42)
    = some (.decodeBin [0x31#8, 0x30#8, 0x31#8]) ∧
  decodeTableWord 72 (0b10 + 3 * 2 ^ 34 + (0x30 + 0x78 * 2 ^ 8 + 0x47 * 2 ^ 16) * 2 ^ 42)
    = some (.decodeHex [0x30#8, 0x78#8, 0x47#8])

/-- A decoder built from the opcode map alone performs what the port decoder performs, in every input vector: the one
matching input-stage operation and all six output-stage operations, and nothing for 0b11 (30_encoding.md section 7). -/
def Obligations.TableDecoderAgreesWithPortDecoder : Prop :=
  ∀ v : InputVector,
    tableDecode v.inSel =
      (match decodeTransaction v with
       | .ok is   => is.map Instr.mnemonic
       | .error _ => [])

/-- Reading the canonical input vector of a well-formed operation gives the operation back, and the vector has
`TXT_MAX` slots and is not refused (30_encoding.md sections 2 and 3). -/
def Obligations.PortsDecodeEncodeRoundTrip : Prop :=
  ∀ (c : Config) (i : Instr) (v : InputVector),
    c.wf → i.wellFormed c = true → encode c i = some v →
      decode v = .ok i ∧ v.wellFormed c = true ∧ v.legal c = true

/-- The canonical form of a well-formed operation is 42 + 8·`txt_len` bits long and reads back as the operation
(30_encoding.md R54, decision D21). -/
def Obligations.CanonicalFormRoundTrip : Prop :=
  ∀ (c : Config) (i : Instr) (bits : List Bool),
    c.wf → i.wellFormed c = true → canonicalForm i = some bits →
      parseCanonical bits = .ok i ∧ bits.length = 42 + 8 * i.textLength

/-- Each string of bits that reads as an operation is that operation's canonical form, so no other string stands for
it. That any other string reads as nothing is the model's choice (log 14): the spec gives the canonical form
(30_encoding.md R54, decision D21) and says nothing of strings that are not one. -/
def Obligations.CanonicalFormIsUnique : Prop :=
  ∀ (bits : List Bool) (i : Instr), parseCanonical bits = .ok i → canonicalForm i = some bits

/-- The forms of the transaction notation read as their transactions (30_encoding.md R65 and R66, decision D21): for
every constant, `ENC`, `BINOF` and `HEXOF` of it, and `BIN` and `HEX` of its renderings followed by a comment. -/
def Obligations.TransactionNotationReads : Prop :=
  ∀ w : Word,
    assemble (wordENC ++ hexText w) = some (.encode w) ∧
    assemble (wordBINOF ++ hexText w) = some (.decodeBin (binText w)) ∧
    assemble (wordHEXOF ++ hexText w) = some (.decodeHex (hexText w)) ∧
    assemble (wordBIN ++ binText w ++ [0x22#8, 0x20#8, 0x3B#8, 0x20#8]) = some (.decodeBin (binText w)) ∧
    assemble (wordHEX ++ hexText w ++ [0x22#8, 0x20#8, 0x3B#8, 0x20#8]) = some (.decodeHex (hexText w))

/-! ### The whole block -/

/-- A step presents the next input vector and, when the ports read as an operation, performs it and then the six
output-stage operations; 0b11 is refused (30_encoding.md section 7; decision D2; the list `pending` is the model's,
log 2). -/
def Obligations.StepRunsTheDecodedOperation : Prop :=
  ∀ s : State,
    (∀ i, decode (nextVector s) = .ok i →
      step s =
        andThen (exec i { s with inp := s.pending.headD s.inp, pending := s.pending.tail }) fun s₁ =>
        andThen (exec .toFloat s₁) fun s₂ =>
        andThen (exec .fields s₂) fun s₃ =>
        andThen (exec .classify s₃) fun s₄ =>
        andThen (exec .mantissaValue s₄) fun s₅ =>
        andThen (exec .unbiasedExponent s₅) fun s₆ =>
        exec .reconstruct s₆) ∧
    (∀ e, decode (nextVector s) = .error e → step s = .refused .reservedSelector)

/-- The step computes the block's function `eval`: refused exactly where `eval` refuses, otherwise the outputs `eval`
gives, whatever the ports held before (10_state.md section 5; decisions D1, D2, D4). -/
def Obligations.StepRefinesEval : Prop :=
  ∀ s : State,
    (eval s.cfg (nextVector s) = none ↔ ∃ r, step s = .refused r) ∧
    (∀ o, eval s.cfg (nextVector s) = some o →
      step s = .next { cfg := s.cfg, inp := nextVector s, out := o, pending := s.pending.tail })

/-- A step is refused exactly for `in_sel` = 0b11 and for a text operation with `txt_len` > `TXT_MAX`
(10_state.md section 5; 30_encoding.md section 5; decisions D4, D5). -/
def Obligations.StepRefusesExactlyTheTwoVectors : Prop :=
  ∀ (s : State) (r : Refusal),
    step s = .refused r ↔
      ((nextVector s).inSel = 0b11#2 ∧ r = .reservedSelector) ∨
      (((nextVector s).inSel = 0b01#2 ∨ (nextVector s).inSel = 0b10#2) ∧
        s.cfg.txtMax < (nextVector s).txtLen.toNat ∧ r = .textTooLong)

/-- Every vector a host may present has a result: the step answers a next state (70_reset_and_hazards.md section 1,
30_encoding.md section 5; decision D19). -/
def Obligations.LegalVectorCompletes : Prop := ∀ s : State, SafeNext s → ∃ t, step s = .next t

/-- Reset meets the invariant and the vector on the ports is legal. The reset values are the model's (log 4, log 5). -/
def Obligations.ResetMeetsTheInvariant : Prop := Inv State.reset ∧ SafeNext State.reset

/-- Every step keeps the invariant: `TXT_MAX` in its range, every vector of `TXT_MAX` slots, the output ports settled
to `eval` of the input ports, their relations, and a recorded position inside the text (log 1, log 2). -/
def Obligations.StepKeepsTheInvariant : Prop := ∀ s t : State, Inv s → step s = .next t → Inv t

/-- After any step, from any state at all, the output ports stand in the relations of 95_test_vectors.md section 6 and
a recorded position is an index of the text (the codes, the error ports and the forced pattern are decisions D10, D11,
D12, D27). -/
def Obligations.StepLeavesConsistentOutputs : Prop :=
  ∀ s t : State, step s = .next t → Consistent t.out ∧ PositionInText t

/-- The outputs of a transaction depend on its own input vector alone: never on the ports' earlier values, on the
vectors presented before (an erroneous one included) or on those still to come (10_state.md section 1, 20_memory.md
section 4, 60_exceptions.md section 1). -/
def Obligations.OutputsForgetThePast : Prop :=
  ∀ s₁ s₂ : State, s₁.cfg = s₂.cfg → nextVector s₁ = nextVector s₂ → sampled (step s₁) = sampled (step s₂)

/-- Two input vectors that differ only in ports the selected operation ignores have equal results
(30_encoding.md R53; decision D5): for ENCODE the text ports, for a text operation `in_word` and the slots at or above
`txt_len`, for 0b11 all. -/
def Obligations.IgnoredPortsHaveNoEffect : Prop :=
  ∀ (s : State) (v₁ v₂ : InputVector),
    v₁.inSel = v₂.inSel →
    (v₁.inSel = 0b00#2 → v₁.inWord = v₂.inWord) →
    (v₁.inSel = 0b01#2 ∨ v₁.inSel = 0b10#2 →
      v₁.txtLen = v₂.txtLen ∧ ∀ k, k < v₁.txtLen.toNat → v₁.txt.getD k 0 = v₂.txt.getD k 0) →
    sampled (step (presentNext v₁ s)) = sampled (step (presentNext v₂ s))

/-- Presenting the same vector again changes nothing (20_memory.md R46; decision D2; that nothing pending means the
same vector again is log 2). -/
def Obligations.SameVectorAgainChangesNothing : Prop :=
  ∀ s t : State, s.pending = [] → step s = .next t → step t = .next t

/-- What each operation may write (10_state.md section 4): the error ports, `pat` and `pat_valid` only the input stage,
`cls` only CLASSIFY, `recon_valid` only RECONSTRUCT, and so on for every output port; the input ports, the build
parameter and the vectors to come never (D1). -/
def Obligations.EachPortHasOneWriter : Prop :=
  ∀ (i : Instr) (s t : State), exec i s = .next t →
    t.cfg = s.cfg ∧ t.inp = s.inp ∧ t.pending = s.pending ∧
    ((∀ w, i ≠ .encode w) → (∀ x, i ≠ .decodeBin x) → (∀ x, i ≠ .decodeHex x) →
      t.out.pat = s.out.pat ∧ t.out.patValid = s.out.patValid ∧ t.out.err = s.out.err ∧
      t.out.errKind = s.out.errKind ∧ t.out.errPosValid = s.out.errPosValid ∧ t.out.errPos = s.out.errPos) ∧
    (i ≠ .toFloat → t.out.fout = s.out.fout) ∧
    (i ≠ .fields → t.out.sign = s.out.sign ∧ t.out.exp = s.out.exp ∧ t.out.mant = s.out.mant) ∧
    (i ≠ .classify → t.out.cls = s.out.cls) ∧
    (i ≠ .mantissaValue → t.out.mval = s.out.mval) ∧
    (i ≠ .unbiasedExponent → t.out.unbExp = s.out.unbExp) ∧
    (i ≠ .reconstruct → t.out.recon = s.out.recon ∧ t.out.reconValid = s.out.reconValid)

/-! ### The input stage: ENCODE, DECODE_BIN, DECODE_HEX -/

/-- ENCODE answers, in every state, the state whose pattern is the word, with the error ports cleared and nothing else
changed (40_decomposer.md section 1; the NaN and the wider-type corner cases are decisions D16, D17). -/
def Obligations.EncodeDrivesTheWord : Prop :=
  ∀ (w : Word) (s : State),
    exec (.encode w) s =
      .next { s with out := { s.out with
        pat := w, patValid := true, err := false, errKind := 0b00#2, errPosValid := false, errPos := 0x00#8 } }

/-- A transaction with `in_sel` = 0b00 drives `pat` and `fout` with `in_word` bit for bit, for every word, and raises
nothing: TO_FLOAT inverts ENCODE (40_decomposer.md section 1, inferred there from two rules). -/
def Obligations.EncodeThenToFloatIsIdentity : Prop :=
  ∀ s : State, (nextVector s).inSel = 0b00#2 →
    ∃ t, step s = .next t ∧ t.out.pat = (nextVector s).inWord ∧ t.out.fout = (nextVector s).inWord ∧
      t.out.patValid = true ∧ t.out.err = false

/-- 30_encoding.md R55. A binary text is accepted exactly when it is 32 characters, each `0` or `1`; then character k is pattern bit
31 - k. Any other text that fits the port, one with a prefix, a separator, a sign or a space included, is not
accepted. The frame says what else an accepted text leaves: nothing but the pattern and the error ports is written;
that these are cleared to 0 are decisions D10 and D27. -/
def Obligations.BinaryTextIsValidExactly : Prop :=
  ∀ (s : State) (text : List CharCode), text.length ≤ s.cfg.txtMax →
    ∃ t, exec (.decodeBin text) s = .next t ∧
      (t.out.patValid = true ↔
        text.length = 32 ∧ ∀ k, k < 32 → text.getD k 0 = 0x30#8 ∨ text.getD k 0 = 0x31#8) ∧
      (t.out.patValid = true →
        (∀ k, k < 32 → t.out.pat.getLsbD (31 - k) = (text.getD k 0 == 0x31#8)) ∧
        t = { s with out := { s.out with
          pat := t.out.pat, patValid := true, err := false, errKind := 0b00#2, errPosValid := false,
          errPos := 0x00#8 } })

/-- DECODE_BIN's errors, in the order of 60_exceptions.md R133 (decisions D7, D10, D11): a wrong length reports
WrongLength without a position even beside an invalid character; otherwise the lowest invalid index is reported; the
pattern is forced to 0 and nothing else is written. -/
def Obligations.BinaryTextErrorsAndTheirOrder : Prop :=
  ∀ (s : State) (text : List CharCode), text.length ≤ s.cfg.txtMax →
    (text.length ≠ 32 →
      exec (.decodeBin text) s = .next { s with out := { s.out with
        pat := 0x00000000#32, patValid := false, err := true, errKind := 0b00#2, errPosValid := false, errPos := 0x00#8 } }) ∧
    (∀ k, text.length = 32 → k < 32 → (text.getD k 0 ≠ 0x30#8 ∧ text.getD k 0 ≠ 0x31#8) →
      (∀ j, j < k → text.getD j 0 = 0x30#8 ∨ text.getD j 0 = 0x31#8) →
      exec (.decodeBin text) s = .next { s with out := { s.out with
        pat := 0x00000000#32, patValid := false, err := true, errKind := 0b01#2, errPosValid := true,
        errPos := BitVec.ofNat 8 k } })

/-- DECODE_HEX of a text with at least one digit after the optional `0x`, all of them hexadecimal digits, and a value
of at most 0xFFFFFFFF drives that value, which is the sum of the digits times their powers of 16, first digit most
significant. The limit is on the value, not on the digit count: decision D9 is a premise of this claim. -/
def Obligations.HexTextDrivesItsValue : Prop :=
  ∀ (s : State) (text : List CharCode) (n v : Nat), text.length ≤ s.cfg.txtMax →
    n = text.length - hexStart text → 0 < n →
    (∀ j, j < n → (hexDigit (text.getD (hexStart text + j) 0)).isSome = true) →
    v = ((List.range n).map fun j =>
          (hexDigit (text.getD (hexStart text + j) 0)).getD 0 * 16 ^ (n - 1 - j)).sum →
    v ≤ 0xFFFFFFFF →
    exec (.decodeHex text) s = .next { s with out := { s.out with
      pat := BitVec.ofNat 32 v, patValid := true, err := false, errKind := 0b00#2, errPosValid := false,
      errPos := 0x00#8 } }

/-- DECODE_HEX's errors, in the order of 60_exceptions.md R133 (decisions D8, D9, D10, D11): the lowest invalid index
of the whole text first, then WrongLength for no digit, then Overflow for a value above 0xFFFFFFFF; the pattern is
forced to 0 and nothing else is written. -/
def Obligations.HexTextErrorsAndTheirOrder : Prop :=
  ∀ (s : State) (text : List CharCode), text.length ≤ s.cfg.txtMax →
    (∀ k, hexStart text ≤ k → k < text.length → hexDigit (text.getD k 0) = none →
      (∀ j, hexStart text ≤ j → j < k → (hexDigit (text.getD j 0)).isSome = true) →
      exec (.decodeHex text) s = .next { s with out := { s.out with
        pat := 0x00000000#32, patValid := false, err := true, errKind := 0b01#2, errPosValid := true,
        errPos := BitVec.ofNat 8 k } }) ∧
    (text.length = hexStart text →
      exec (.decodeHex text) s = .next { s with out := { s.out with
        pat := 0x00000000#32, patValid := false, err := true, errKind := 0b00#2, errPosValid := false, errPos := 0x00#8 } }) ∧
    (∀ n, n = text.length - hexStart text →
      (∀ j, j < n → (hexDigit (text.getD (hexStart text + j) 0)).isSome = true) →
      0xFFFFFFFF < ((List.range n).map fun j =>
        (hexDigit (text.getD (hexStart text + j) 0)).getD 0 * 16 ^ (n - 1 - j)).sum →
      exec (.decodeHex text) s = .next { s with out := { s.out with
        pat := 0x00000000#32, patValid := false, err := true, errKind := 0b10#2, errPosValid := false, errPos := 0x00#8 } })

/-- A text longer than the text port is refused by both text operations (10_state.md section 5, decision D5). -/
def Obligations.TextLongerThanThePortIsRefused : Prop :=
  ∀ (s : State) (text : List CharCode), s.cfg.txtMax < text.length →
    exec (.decodeBin text) s = .refused .textTooLong ∧ exec (.decodeHex text) s = .refused .textTooLong

/-- Overflow can be told from the digits: with every character valid, DECODE_HEX raises Overflow exactly when there are
more than 8 digits and one of the first n - 8 is not 0; and when it raises nothing, the pattern is the value of the last
min(n, 8) digits (40_decomposer.md section 1, inferred there from DECODE_HEX; decision D9). -/
def Obligations.OverflowIsANonzeroEarlyDigit : Prop :=
  ∀ (s t : State) (text digits : List CharCode),
    digits = text.drop (hexStart text) → digits ≠ [] → (∀ c ∈ digits, (hexDigit c).isSome = true) →
    exec (.decodeHex text) s = .next t →
    (t.out.err = true ↔
      8 < digits.length ∧ ∃ j, j < digits.length - 8 ∧ hexDigit (digits.getD j 0) ≠ some 0) ∧
    (t.out.err = true → t.out.errKind = 0b10#2) ∧
    (t.out.err = false → t.out.pat.toNat = digitsValue 16 hexDigit (digits.drop (digits.length - 8)))

/-- The optional prefix is recognised once, and only at index 0 (30_encoding.md section 3): a digit string that does not
itself begin with a prefix gives, after `0x` or `0X`, the same pattern or the same kind of error, the position counted
two higher. -/
def Obligations.HexPrefixOnlyShiftsPositions : Prop :=
  ∀ (s t₁ t₂ : State) (x : CharCode) (digits : List CharCode),
    digits.length + 2 ≤ s.cfg.txtMax → (x = 0x78#8 ∨ x = 0x58#8) → hexStart digits = 0 →
    exec (.decodeHex digits) s = .next t₁ → exec (.decodeHex (0x30#8 :: x :: digits)) s = .next t₂ →
    t₂.out.pat = t₁.out.pat ∧ t₂.out.patValid = t₁.out.patValid ∧ t₂.out.err = t₁.out.err ∧
    t₂.out.errKind = t₁.out.errKind ∧ t₂.out.errPosValid = t₁.out.errPosValid ∧
    t₂.out.errPos = (if t₁.out.errPosValid = true then t₁.out.errPos + 2 else 0)

/-- The case of hexadecimal digits and of the prefix's `x` does not matter (30_encoding.md section 3; the character
codes are ASCII, decision D6). -/
def Obligations.HexCaseDoesNotMatter : Prop :=
  ∀ (s : State) (text : List CharCode),
    exec (.decodeHex (text.map fun c =>
      if (0x41 ≤ c.toNat ∧ c.toNat ≤ 0x46) ∨ c = 0x58#8 then c + 0x20#8 else c)) s = exec (.decodeHex text) s

/-- Any number of leading `0` digits that fits the text port changes nothing (95_test_vectors.md section 6; decision D9
is a premise of this claim). -/
def Obligations.LeadingZerosChangeNothing : Prop :=
  ∀ (s : State) (n : Nat) (w : Word), s.cfg.wf → n + 8 ≤ s.cfg.txtMax →
    exec (.decodeHex (List.replicate n 0x30#8 ++ hexDigitsOf lowerDigit w)) s = exec (.encode w) s ∧
    exec (.decodeHex (hexText w)) s = exec (.encode w) s

/-- 40_decomposer.md R85. A text is never truncated, padded or wrapped into a pattern: a text that is accepted is, character for character,
the rendering of its pattern (binary) or has exactly the pattern's value (hexadecimal, at least one digit, all valid);
every other text that fits the port raises FormatError, and then `pat` is not derived from the
text: it is the forced 0 of decision D11. -/
def Obligations.TextIsNeverTruncatedOrWrapped : Prop :=
  ∀ (s t : State) (text : List CharCode),
    (exec (.decodeBin text) s = .next t →
      (t.out.err = true ∨ text = binText t.out.pat) ∧
      (¬ (text.length = 32 ∧ ∀ c ∈ text, c = 0x30#8 ∨ c = 0x31#8) → t.out.err = true) ∧
      (t.out.err = true → t.out.pat = 0 ∧ t.out.patValid = false)) ∧
    (exec (.decodeHex text) s = .next t →
      (t.out.err = true ∨
        (text.drop (hexStart text) ≠ [] ∧ (∀ c ∈ text.drop (hexStart text), (hexDigit c).isSome = true) ∧
          digitsValue 16 hexDigit (text.drop (hexStart text)) = t.out.pat.toNat)) ∧
      (¬ (text.drop (hexStart text) ≠ [] ∧ (∀ c ∈ text.drop (hexStart text), (hexDigit c).isSome = true) ∧
          digitsValue 16 hexDigit (text.drop (hexStart text)) ≤ 0xFFFFFFFF) → t.out.err = true) ∧
      (t.out.err = true → t.out.pat = 0 ∧ t.out.patValid = false))

/-- Round trip through text: for every word, the transactions `BINOF w` and `HEXOF w` settle to the very outputs of
`ENC w`, with `pat` = `fout` = w, infinities, NaNs and the sign of zero included (40_decomposer.md section 3; the
renderings are decision D29). -/
def Obligations.TextRoundTrip : Prop :=
  ∀ (s : State) (w : Word) (v₀ v₁ v₂ : InputVector), s.cfg.wf →
    encode s.cfg (.encode w) = some v₀ → encode s.cfg (.decodeBin (binText w)) = some v₁ →
    encode s.cfg (.decodeHex (hexText w)) = some v₂ →
    ∃ o, sampled (step (presentNext v₀ s)) = some o ∧ sampled (step (presentNext v₁ s)) = some o ∧
      sampled (step (presentNext v₂ s)) = some o ∧ o.pat = w ∧ o.fout = w ∧ o.err = false

/-- The source's two texts of one pattern settle to the same outputs, with the exact value 13176795 / 2^22
(40_decomposer.md section 3; 90_conflicts.md C1: the digits 3.14159012... in the source are another pattern's). -/
def Obligations.PiTextsAgree : Prop :=
  ∀ (s : State) (v₁ v₂ : InputVector), s.cfg.wf →
    encode s.cfg (.decodeHex [0x30, 0x78, 0x34, 0x30, 0x34, 0x39, 0x30, 0x46, 0x44, 0x42]) = some v₁ →
    encode s.cfg (.decodeBin
      [0x30, 0x31, 0x30, 0x30, 0x30, 0x30, 0x30, 0x30, 0x30, 0x31, 0x30, 0x30, 0x31, 0x30, 0x30, 0x31,
       0x30, 0x30, 0x30, 0x30, 0x31, 0x31, 0x31, 0x31, 0x31, 0x31, 0x30, 0x31, 0x31, 0x30, 0x31, 0x31]) = some v₂ →
    ∃ o, sampled (step (presentNext v₁ s)) = some o ∧ sampled (step (presentNext v₂ s)) = some o ∧
      o.pat = 0x40490FDB#32 ∧ o.cls = 0b000#3 ∧ o.reconValid = true ∧ o.recon = 0x40490FDB#32 ∧
      f32 o.recon = .number (13176795 / 2 ^ 22)

/-! ### FormatError -/

/-- 60_exceptions.md R131. Only DECODE_BIN and DECODE_HEX raise FormatError: every other operation answers a next state, and `err` is 1 there
only if it was 1 before and the operation is not ENCODE, which clears it; and a transaction with `in_sel` = 0b00 shows
`err` = 0. -/
def Obligations.OnlyTextOperationsRaise : Prop :=
  (∀ (i : Instr) (s : State), (∀ x, i ≠ .decodeBin x) → (∀ x, i ≠ .decodeHex x) →
    ∃ t, exec i s = .next t ∧
      (t.out.err = true → s.out.err = true ∧ t.out.errKind = s.out.errKind ∧ ∀ w, i ≠ .encode w)) ∧
  (∀ s : State, (nextVector s).inSel = 0b00#2 → ∃ t, step s = .next t ∧ t.out.err = false)

/-- The complete list of causes (60_exceptions.md R132; decisions D7, D8, D9), for a whole transaction: when each kind
is reported, and no other condition raises any. -/
def Obligations.FormatErrorCausesAreComplete : Prop :=
  ∀ (s t : State) (v : InputVector) (digits : List CharCode), v = nextVector s →
    digits = v.text.drop (hexStart v.text) → step s = .next t →
    ((t.out.err = true ∧ t.out.errKind = 0b00#2) ↔
      (v.inSel = 0b01#2 ∧ v.txtLen ≠ 32#8) ∨ (v.inSel = 0b10#2 ∧ digits = [])) ∧
    ((t.out.err = true ∧ t.out.errKind = 0b01#2) ↔
      (v.inSel = 0b01#2 ∧ v.txtLen = 32#8 ∧ ∃ c ∈ v.text, c ≠ 0x30#8 ∧ c ≠ 0x31#8) ∨
      (v.inSel = 0b10#2 ∧ ∃ c ∈ digits, hexDigit c = none)) ∧
    ((t.out.err = true ∧ t.out.errKind = 0b10#2) ↔
      v.inSel = 0b10#2 ∧ (∀ c ∈ digits, (hexDigit c).isSome = true) ∧
        0xFFFFFFFF < digitsValue 16 hexDigit digits) ∧
    (t.out.err = true → t.out.errKind ≠ 0b11#2)

/-- In a transaction that raises FormatError every port has its forced value and only the error ports tell of the text
(60_exceptions.md R135, 42_reconstructor.md R116; decision D11: the forced values carry no meaning). -/
def Obligations.FormatErrorForcesTheOutputs : Prop :=
  ∀ s t : State, step s = .next t → t.out.err = true →
    t.out = { patValid := false, pat := 0x00000000#32, fout := 0x00000000#32, sign := 0#1, exp := 0x00#8,
              mant := 0x000000#23, cls := 0b001#3, unbExp := 0x181#9, mval := 0x3F800000#32,
              recon := 0x00000000#32, reconValid := false, err := true, errKind := t.out.errKind,
              errPosValid := t.out.errPosValid, errPos := t.out.errPos } ∧
    transactionResult t.inp t.out = .error (reportedError t.inp t.out) ∧ reportedError t.inp t.out ≠ none

/-! ### The output stage: TO_FLOAT, FIELDS, CLASSIFY, MANTISSA_VALUE, UNBIASED_EXPONENT, RECONSTRUCT -/

/-- 40_decomposer.md R86. TO_FLOAT drives `fout` with `pat`, writes nothing else and is total; so does every transaction that is not refused,
where `fout` is 0x00000000 when `pat_valid` is 0. -/
def Obligations.ToFloatDrivesThePattern : Prop :=
  (∀ s : State, exec .toFloat s = .next { s with out := { s.out with fout := s.out.pat } }) ∧
  (∀ s t : State, step s = .next t →
    t.out.fout = t.out.pat ∧ (t.out.patValid = false → t.out.fout = 0x00000000#32))

/-- 40_decomposer.md R87, 10_state.md R28. FIELDS splits `pat` into bit 31, bits 30..23 and bits 22..0, writes nothing else and is total; the fields make up
the pattern exactly; in every transaction the field ports are those of `pat`, and 0 when `pat_valid` is 0. -/
def Obligations.FieldsSplitThePattern : Prop :=
  (∀ s : State, ∃ t, exec .fields s = .next t ∧
    t = { s with out := { s.out with sign := t.out.sign, exp := t.out.exp, mant := t.out.mant } } ∧
    t.out.sign.getLsbD 0 = s.out.pat.getLsbD 31 ∧
    (∀ j, j < 8 → t.out.exp.getLsbD j = s.out.pat.getLsbD (23 + j)) ∧
    (∀ j, j < 23 → t.out.mant.getLsbD j = s.out.pat.getLsbD j) ∧
    t.out.sign.toNat * 2 ^ 31 + t.out.exp.toNat * 2 ^ 23 + t.out.mant.toNat = s.out.pat.toNat) ∧
  (∀ s t : State, step s = .next t →
    t.out.sign.toNat = t.out.pat.toNat / 2 ^ 31 ∧ t.out.exp.toNat = t.out.pat.toNat / 2 ^ 23 % 2 ^ 8 ∧
    t.out.mant.toNat = t.out.pat.toNat % 2 ^ 23 ∧
    (t.out.patValid = false → t.out.sign = 0 ∧ t.out.exp = 0 ∧ t.out.mant = 0))

/-- 41_classifier.md R100. CLASSIFY drives the one code its operands call for, writes nothing else and is total; in every transaction `cls` is
the class of `pat`, and Zero when `pat_valid` is 0. (The codes R100 writes are numbered by decision D12.) -/
def Obligations.ClassifyDrivesTheClass : Prop :=
  (∀ s : State, ∃ t, exec .classify s = .next t ∧ t = { s with out := { s.out with cls := t.out.cls } } ∧
    (t.out.cls = 0b011#3 ↔ s.out.exp.toNat = 255 ∧ s.out.mant.toNat = 0) ∧
    (t.out.cls = 0b100#3 ↔ s.out.exp.toNat = 255 ∧ s.out.mant.toNat ≠ 0) ∧
    (t.out.cls = 0b001#3 ↔ s.out.exp.toNat = 0 ∧ s.out.mant.toNat = 0) ∧
    (t.out.cls = 0b010#3 ↔ s.out.exp.toNat = 0 ∧ s.out.mant.toNat ≠ 0) ∧
    (t.out.cls = 0b000#3 ↔ 1 ≤ s.out.exp.toNat ∧ s.out.exp.toNat ≤ 254)) ∧
  (∀ s t : State, step s = .next t →
    (t.out.cls = 0b011#3 ↔ t.out.pat.toNat % 2 ^ 31 = 0x7F800000) ∧
    (t.out.cls = 0b100#3 ↔ 0x7F800000 < t.out.pat.toNat % 2 ^ 31) ∧
    (t.out.cls = 0b001#3 ↔ t.out.pat.toNat % 2 ^ 31 = 0) ∧
    (t.out.cls = 0b010#3 ↔ 0 < t.out.pat.toNat % 2 ^ 31 ∧ t.out.pat.toNat % 2 ^ 31 < 0x00800000) ∧
    (t.out.cls = 0b000#3 ↔ 0x00800000 ≤ t.out.pat.toNat % 2 ^ 31 ∧ t.out.pat.toNat % 2 ^ 31 < 0x7F800000) ∧
    (t.out.patValid = false → t.out.cls = 0b001#3))

/-- The five classes partition the 256 × 2^23 pairs, with the sizes the spec enumerates (41_classifier.md section of
CLASSIFY; the sizes are its own inference). -/
def Obligations.ClassSizes : Prop :=
  Nat.card {p : BitVec 8 × BitVec 23 // classOf p.1 p.2 = .normal} = 254 * 2 ^ 23 ∧
  Nat.card {p : BitVec 8 × BitVec 23 // classOf p.1 p.2 = .zero} = 1 ∧
  Nat.card {p : BitVec 8 × BitVec 23 // classOf p.1 p.2 = .denormalized} = 2 ^ 23 - 1 ∧
  Nat.card {p : BitVec 8 × BitVec 23 // classOf p.1 p.2 = .infinity} = 1 ∧
  Nat.card {p : BitVec 8 × BitVec 23 // classOf p.1 p.2 = .nan} = 2 ^ 23 - 1

/-- 41_classifier.md R102. CLASSIFY reads only `exp` and `mant`; the tag and the sign together describe the value of a Zero and of an
Infinity; the sign port is `pat[31]` in every class, and every NaN has the one tag whatever its payload. -/
def Obligations.TagAndSignDescribeTheValue : Prop :=
  (∀ s₁ s₂ t₁ t₂ : State, s₁.out.exp = s₂.out.exp → s₁.out.mant = s₂.out.mant →
    exec .classify s₁ = .next t₁ → exec .classify s₂ = .next t₂ → t₁.out.cls = t₂.out.cls) ∧
  (∀ s t : State, step s = .next t →
    (t.out.sign = 1#1 ↔ t.out.pat.getLsbD 31 = true) ∧
    (t.out.cls = 0b001#3 → f32 t.out.pat = .zero (t.out.sign == 1#1)) ∧
    (t.out.cls = 0b011#3 → f32 t.out.pat = .infinity (t.out.sign == 1#1)) ∧
    (t.out.cls = 0b100#3 ↔ f32 t.out.pat = .nan))

/-- MANTISSA_VALUE drives 0x3F800000 with the mantissa field in its low bits, in every class, writes nothing else and
is total; the datum it drives is exactly `1 + sum of bit_i * 2^(-i)` = 1 + m / 2^23, between 1 and 2 - 2^(-23)
(42_reconstructor.md; the binary32 encoding is inferred there, decision D14). -/
def Obligations.MantissaValueIsExact : Prop :=
  ∀ s : State, ∃ t, exec .mantissaValue s = .next t ∧
    t = { s with out := { s.out with mval := 0x3F800000#32 ||| s.out.mant.setWidth 32 } } ∧
    f32 t.out.mval = .number (mantissaValue s.out.mant) ∧
    mantissaValue s.out.mant = 1 + (s.out.mant.toNat : ℚ) / 2 ^ 23 ∧
    1 ≤ mantissaValue s.out.mant ∧ mantissaValue s.out.mant ≤ 2 - 1 / 2 ^ 23

/-- UNBIASED_EXPONENT drives the raw exponent minus 127 in two's complement, from -127 to 128, in every class, writes
nothing else and is total (42_reconstructor.md; decision D13). -/
def Obligations.UnbiasedExponentSubtractsTheBias : Prop :=
  ∀ s : State, ∃ t, exec .unbiasedExponent s = .next t ∧
    t = { s with out := { s.out with unbExp := t.out.unbExp } } ∧
    t.out.unbExp.toInt = (s.out.exp.toNat : Int) - 127 ∧ -127 ≤ t.out.unbExp.toInt ∧ t.out.unbExp.toInt ≤ 128

/-- RECONSTRUCT's drive for every class code and for `pat_valid` = 0; it is total and writes `recon` and `recon_valid`
only (42_reconstructor.md R112; the drive for Zero, Infinity and NaN is decision D15). For a code that is never driven
it says only that `recon_valid` is 0: `recon` is then a free value (log 7). -/
def Obligations.ReconstructDrivesPerClass : Prop :=
  ∀ s : State, ∃ t, exec .reconstruct s = .next t ∧
    t = { s with out := { s.out with recon := t.out.recon, reconValid := t.out.reconValid } } ∧
    (t.out.reconValid = true ↔ s.out.patValid = true ∧ (s.out.cls = 0b000#3 ∨ s.out.cls = 0b010#3)) ∧
    (s.out.patValid = false → t.out.recon = 0x00000000#32) ∧
    (s.out.patValid = true → s.out.cls = 0b000#3 →
      t.out.recon.toNat = s.out.sign.toNat * 2 ^ 31 + s.out.exp.toNat * 2 ^ 23 + s.out.mant.toNat) ∧
    (s.out.patValid = true → s.out.cls = 0b010#3 →
      t.out.recon.toNat = s.out.sign.toNat * 2 ^ 31 + s.out.mant.toNat) ∧
    (s.out.patValid = true → s.out.cls = 0b001#3 → t.out.recon.toNat = s.out.sign.toNat * 2 ^ 31) ∧
    (s.out.patValid = true → s.out.cls = 0b011#3 → t.out.recon.toNat = s.out.sign.toNat * 2 ^ 31 + 0x7F800000) ∧
    (s.out.patValid = true → s.out.cls = 0b100#3 → t.out.recon.toNat = s.out.sign.toNat * 2 ^ 31 + 0x7FC00000)

/-- Reconstruction is exact: in every transaction with `recon_valid` = 1, `recon` is the pattern and stands for ±N·2^E
with N < 2^24 and E = -149 or E = exp - 150; for a Normal pattern that is the sign times 2 to the unbiased exponent
times the mantissa value on the ports (42_reconstructor.md; the exactness is inferred there). -/
def Obligations.ReconstructionIsExact : Prop :=
  ∀ s t : State, step s = .next t → t.out.reconValid = true →
    t.out.recon = t.out.pat ∧
    (∃ (N : Nat) (E : ℤ), N < 2 ^ 24 ∧ (E = -149 ∨ (E = (t.out.exp.toNat : ℤ) - 150 ∧ 1 ≤ t.out.exp.toNat ∧
        t.out.exp.toNat ≤ 254)) ∧
      f32 t.out.recon = .number ((-1) ^ t.out.sign.toNat * (N : ℚ) * (2 : ℚ) ^ E)) ∧
    (t.out.cls = 0b000#3 → ∃ m, f32 t.out.mval = .number m ∧
      f32 t.out.recon = .number ((-1) ^ t.out.sign.toNat * (2 : ℚ) ^ t.out.unbExp.toInt * m))

/-- 42_reconstructor.md R113. A Denormalized pattern is reconstructed with leading bit 0 and exponent -126, and never with MANTISSA_VALUE's
leading 1 or with UNBIASED_EXPONENT's -127. -/
def Obligations.DenormalizedNeverUsesTheShortcut : Prop :=
  ∀ s t : State, step s = .next t → t.out.patValid = true → t.out.cls = 0b010#3 →
    t.out.reconValid = true ∧
    f32 t.out.recon = .number ((-1) ^ t.out.sign.toNat * (2 : ℚ) ^ (-126 : ℤ) * ((t.out.mant.toNat : ℚ) / 2 ^ 23)) ∧
    (∀ m, f32 t.out.mval = .number m →
      f32 t.out.recon ≠ .number ((-1) ^ t.out.sign.toNat * (2 : ℚ) ^ t.out.unbExp.toInt * m) ∧
      f32 t.out.recon ≠ .number ((-1) ^ t.out.sign.toNat * (2 : ℚ) ^ (-126 : ℤ) * m) ∧
      f32 t.out.recon ≠
        .number ((-1) ^ t.out.sign.toNat * (2 : ℚ) ^ t.out.unbExp.toInt * ((t.out.mant.toNat : ℚ) / 2 ^ 23)))

/-- The value function is one to one but for NaN: two patterns that stand for the same number, zero or infinity are the
same pattern (00_scope.md section 4, 42_reconstructor.md on exactness; derived, no rule says it in these words). -/
def Obligations.ValueDeterminesThePattern : Prop :=
  ∀ a b : Word, f32 a = f32 b → f32 a ≠ .nan → a = b
end

