-- ==== Sys2Proof/Laws/Operands.lean ====
section
/-! SUPPORT. What each operand form and each parser does, said once. -/

namespace Sys2Proof.Machine

/-! ### Fields -/

theorem signOf_toNat (p : Word) : (signOf p).toNat = p.toNat / 2 ^ 31 := by
  have := p.isLt
  simp only [signOf, BitVec.extractLsb'_toNat, Nat.shiftRight_eq_div_pow]
  omega

theorem expOf_toNat (p : Word) : (expOf p).toNat = p.toNat / 2 ^ 23 % 2 ^ 8 := by
  simp only [expOf, BitVec.extractLsb'_toNat, Nat.shiftRight_eq_div_pow]

theorem mantOf_toNat (p : Word) : (mantOf p).toNat = p.toNat % 2 ^ 23 := by
  simp [mantOf, BitVec.extractLsb'_toNat]

theorem pack_toNat (sign : BitVec 1) (exp : BitVec 8) (mant : BitVec 23) :
    (pack sign exp mant).toNat = sign.toNat * 2 ^ 31 + exp.toNat * 2 ^ 23 + mant.toNat := by
  have h1 := exp.isLt
  have h2 := mant.isLt
  simp only [pack, BitVec.toNat_append]
  rw [← Nat.shiftLeft_add_eq_or_of_lt h1, ← Nat.shiftLeft_add_eq_or_of_lt h2]
  simp only [Nat.shiftLeft_eq]
  omega

@[simp] theorem signOf_pack (sign : BitVec 1) (exp : BitVec 8) (mant : BitVec 23) :
    signOf (pack sign exp mant) = sign := by
  apply BitVec.eq_of_toNat_eq
  have h0 := sign.isLt
  have h1 := exp.isLt
  have h2 := mant.isLt
  rw [signOf_toNat, pack_toNat]
  omega

@[simp] theorem expOf_pack (sign : BitVec 1) (exp : BitVec 8) (mant : BitVec 23) :
    expOf (pack sign exp mant) = exp := by
  apply BitVec.eq_of_toNat_eq
  have h0 := sign.isLt
  have h1 := exp.isLt
  have h2 := mant.isLt
  rw [expOf_toNat, pack_toNat]
  omega

@[simp] theorem mantOf_pack (sign : BitVec 1) (exp : BitVec 8) (mant : BitVec 23) :
    mantOf (pack sign exp mant) = mant := by
  apply BitVec.eq_of_toNat_eq
  have h0 := sign.isLt
  have h1 := exp.isLt
  have h2 := mant.isLt
  rw [mantOf_toNat, pack_toNat]
  omega

@[simp] theorem pack_fields (p : Word) : pack (signOf p) (expOf p) (mantOf p) = p := by
  apply BitVec.eq_of_toNat_eq
  have := p.isLt
  rw [pack_toNat, signOf_toNat, expOf_toNat, mantOf_toNat]
  omega

/-! ### Classes and codes -/

@[simp] theorem classOfCode_classCode (k : Classification) : classOfCode (classCode k) = some k := by
  cases k <;> rfl

@[simp] theorem errorOfCode_errorCode (k : FormatErrorKind) : errorOfCode (errorCode k) = some k := by
  cases k <;> rfl

theorem classCode_injective {a b : Classification} (h : classCode a = classCode b) : a = b := by
  simpa using congrArg classOfCode h

theorem classOf_eq_normal (exp : BitVec 8) (mant : BitVec 23) :
    classOf exp mant = .normal ↔ 1 ≤ exp.toNat ∧ exp.toNat ≤ 254 := by
  have h := exp.isLt
  by_cases h0 : exp = 0 <;> by_cases h1 : exp = 255#8 <;> by_cases hm : mant = 0 <;>
    simp_all [classOf, BitVec.toNat_eq] <;> omega

theorem classOf_eq_denormalized (exp : BitVec 8) (mant : BitVec 23) :
    classOf exp mant = .denormalized ↔ exp = 0#8 ∧ mant ≠ 0#23 := by
  by_cases h0 : exp = 0 <;> by_cases h1 : exp = 255#8 <;> by_cases hm : mant = 0 <;> simp_all [classOf]

theorem classOf_eq_zero (exp : BitVec 8) (mant : BitVec 23) :
    classOf exp mant = .zero ↔ exp = 0#8 ∧ mant = 0#23 := by
  by_cases h0 : exp = 0 <;> by_cases h1 : exp = 255#8 <;> by_cases hm : mant = 0 <;> simp_all [classOf]

theorem classOf_eq_infinity (exp : BitVec 8) (mant : BitVec 23) :
    classOf exp mant = .infinity ↔ exp = 255#8 ∧ mant = 0#23 := by
  by_cases h0 : exp = 0 <;> by_cases h1 : exp = 255#8 <;> by_cases hm : mant = 0 <;> simp_all [classOf]

theorem classOf_eq_nan (exp : BitVec 8) (mant : BitVec 23) :
    classOf exp mant = .nan ↔ exp = 255#8 ∧ mant ≠ 0#23 := by
  by_cases h0 : exp = 0 <;> by_cases h1 : exp = 255#8 <;> by_cases hm : mant = 0 <;> simp_all [classOf]

/-! ### The reconstructor's drive, one lemma per class code (42_reconstructor.md R112) -/

@[simp] theorem reconstructDrive_invalid (sign : BitVec 1) (exp : BitVec 8) (mant : BitVec 23) (cls : BitVec 3) :
    reconstructDrive false sign exp mant cls = (0#32, false) := rfl

@[simp] theorem reconstructDrive_normal (sign : BitVec 1) (exp : BitVec 8) (mant : BitVec 23) :
    reconstructDrive true sign exp mant 0b000#3 = (pack sign exp mant, true) := rfl

@[simp] theorem reconstructDrive_zero (sign : BitVec 1) (exp : BitVec 8) (mant : BitVec 23) :
    reconstructDrive true sign exp mant 0b001#3 = (pack sign 0#8 0#23, false) := rfl

@[simp] theorem reconstructDrive_denormalized (sign : BitVec 1) (exp : BitVec 8) (mant : BitVec 23) :
    reconstructDrive true sign exp mant 0b010#3 = (pack sign 0#8 mant, true) := rfl

@[simp] theorem reconstructDrive_infinity (sign : BitVec 1) (exp : BitVec 8) (mant : BitVec 23) :
    reconstructDrive true sign exp mant 0b011#3 = (pack sign 255#8 0#23, false) := rfl

@[simp] theorem reconstructDrive_nan (sign : BitVec 1) (exp : BitVec 8) (mant : BitVec 23) :
    reconstructDrive true sign exp mant 0b100#3 = (pack sign 255#8 0x400000#23, false) := rfl

theorem classCode_eq_iff (a b : Classification) : classCode a = classCode b ↔ a = b :=
  ⟨classCode_injective, congrArg classCode⟩

/-! ### Texts -/

@[simp] theorem readSlots_length (n : Nat) (cs : List CharCode) : (readSlots n cs).length = n := by
  induction n generalizing cs with
  | zero => rfl
  | succ n ih => cases cs <;> simp [readSlots, ih]

theorem readSlots_getD (n k : Nat) (cs : List CharCode) (h : k < n) :
    (readSlots n cs).getD k 0 = cs.getD k 0 := by
  induction n generalizing k cs with
  | zero => omega
  | succ n ih =>
    cases cs <;> cases k <;> simp_all [readSlots]

theorem readSlots_append (text rest : List CharCode) : readSlots text.length (text ++ rest) = text := by
  induction text with
  | nil => rfl
  | cons c cs ih => simp [readSlots, ih]

@[simp] theorem text_length (v : InputVector) : v.text.length = v.txtLen.toNat := readSlots_length _ _

theorem hexStart_eq (text : List CharCode) : hexStart text = 0 ∨ hexStart text = 2 := by
  unfold hexStart
  split
  · split <;> simp
  · simp

theorem hexStart_le_length (text : List CharCode) : hexStart text ≤ text.length := by
  unfold hexStart
  split
  · split <;> simp
  · simp

theorem firstOffending_eq_none (digit : CharCode → Option Nat) (k : Nat) (cs : List CharCode) :
    firstOffending digit k cs = none ↔ ∀ c ∈ cs, (digit c).isSome = true := by
  induction cs generalizing k with
  | nil => simp [firstOffending]
  | cons c cs ih =>
    by_cases h : (digit c).isSome = true <;> simp [firstOffending, h, ih]

theorem firstOffending_eq_some (digit : CharCode → Option Nat) (k m : Nat) (cs : List CharCode) :
    firstOffending digit k cs = some m ↔
      ∃ j, m = k + j ∧ j < cs.length ∧ digit (cs.getD j 0) = none ∧
        ∀ i, i < j → (digit (cs.getD i 0)).isSome = true := by
  induction cs generalizing k with
  | nil => simp [firstOffending]
  | cons c cs ih =>
    by_cases h : (digit c).isSome = true
    · simp only [firstOffending, h, if_true, ih]
      constructor
      · rintro ⟨j, rfl, hj, hn, hb⟩
        refine ⟨j + 1, by omega, by simpa using hj, by simpa using hn, ?_⟩
        intro i hi
        cases i with
        | zero => simpa using h
        | succ i => simpa using hb i (by omega)
      · rintro ⟨j, rfl, hj, hn, hb⟩
        cases j with
        | zero => simp at hn; simp [hn] at h
        | succ j =>
          refine ⟨j, by omega, by simpa using hj, by simpa using hn, ?_⟩
          intro i hi
          simpa using hb (i + 1) (by omega)
    · simp only [firstOffending, h]
      constructor
      · intro he
        refine ⟨0, by simpa using he.symm, by simp, by simpa using h, by simp⟩
      · rintro ⟨j, rfl, hj, hn, hb⟩
        cases j with
        | zero => simp
        | succ j => exact absurd (by simpa using hb 0 (by omega)) h

@[simp] theorem digitsValue_nil (b : Nat) (digit : CharCode → Option Nat) : digitsValue b digit [] = 0 := rfl

theorem digitsValue_snoc (b : Nat) (digit : CharCode → Option Nat) (cs : List CharCode) (c : CharCode) :
    digitsValue b digit (cs ++ [c]) = b * digitsValue b digit cs + (digit c).getD 0 := by
  simp [digitsValue]

theorem digitsValue_append (b : Nat) (digit : CharCode → Option Nat) (xs ys : List CharCode) :
    digitsValue b digit (xs ++ ys) = digitsValue b digit xs * b ^ ys.length + digitsValue b digit ys := by
  induction ys using List.reverseRecOn with
  | nil => simp
  | append_singleton ys c ih =>
    rw [← List.append_assoc, digitsValue_snoc, digitsValue_snoc, ih, List.length_append]
    simp only [List.length_singleton, pow_succ]
    ring

theorem digitsValue_lt (b : Nat) (digit : CharCode → Option Nat) (cs : List CharCode)
    (h : ∀ c ∈ cs, (digit c).getD 0 < b) : digitsValue b digit cs < b ^ cs.length := by
  induction cs using List.reverseRecOn with
  | nil => simp
  | append_singleton cs c ih =>
    have h1 := ih fun d hd => h d (by simp [hd])
    have h2 := h c (by simp)
    rw [digitsValue_snoc, List.length_append, List.length_singleton, pow_succ]
    nlinarith

theorem binDigit_lt (c : CharCode) : (binDigit c).getD 0 < 2 := by
  unfold binDigit
  split
  · simp
  · split <;> simp

theorem hexDigit_lt (c : CharCode) : (hexDigit c).getD 0 < 16 := by
  unfold hexDigit
  simp only
  split
  · simp; omega
  · split
    · simp; omega
    · split
      · simp; omega
      · simp

theorem binDigit_isSome (c : CharCode) : (binDigit c).isSome = true ↔ c = 0x30#8 ∨ c = 0x31#8 := by
  unfold binDigit
  split
  · simp [*]
  · split <;> simp [*]

/-- Everything DECODE_BIN's parser can answer (40_decomposer.md R82). -/
theorem parseBin_cases (text : List CharCode) :
    (text.length ≠ 32 ∧ parseBin text = .error ⟨.wrongLength, none⟩) ∨
    (text.length = 32 ∧ ∃ k, k < 32 ∧ firstOffending binDigit 0 text = some k ∧
      parseBin text = .error ⟨.invalidDigit, some k⟩) ∨
    (text.length = 32 ∧ (∀ c ∈ text, (binDigit c).isSome = true) ∧
      parseBin text = .ok (BitVec.ofNat 32 (digitsValue 2 binDigit text))) := by
  by_cases hl : text.length = 32
  · rcases hf : firstOffending binDigit 0 text with _ | k
    · exact .inr (.inr ⟨hl, (firstOffending_eq_none _ _ _).1 hf, by simp [parseBin, hl, hf]⟩)
    · obtain ⟨j, rfl, hj, -⟩ := (firstOffending_eq_some _ _ _ _).1 hf
      exact .inr (.inl ⟨hl, 0 + j, by omega, rfl, by simp [parseBin, hl, hf]⟩)
  · exact .inl ⟨hl, by simp [parseBin, hl]⟩

/-- Everything DECODE_HEX's parser can answer (40_decomposer.md R83). -/
theorem parseHex_cases (text : List CharCode) :
    (∃ k, hexStart text ≤ k ∧ k < text.length ∧
      firstOffending hexDigit (hexStart text) (text.drop (hexStart text)) = some k ∧
      parseHex text = .error ⟨.invalidDigit, some k⟩) ∨
    (text.length = hexStart text ∧ parseHex text = .error ⟨.wrongLength, none⟩) ∨
    (hexStart text < text.length ∧ (∀ c ∈ text.drop (hexStart text), (hexDigit c).isSome = true) ∧
      PATTERN_MAX < digitsValue 16 hexDigit (text.drop (hexStart text)) ∧
      parseHex text = .error ⟨.overflow, none⟩) ∨
    (hexStart text < text.length ∧ (∀ c ∈ text.drop (hexStart text), (hexDigit c).isSome = true) ∧
      digitsValue 16 hexDigit (text.drop (hexStart text)) ≤ PATTERN_MAX ∧
      parseHex text = .ok (BitVec.ofNat 32 (digitsValue 16 hexDigit (text.drop (hexStart text))))) := by
  have hle := hexStart_le_length text
  rcases hf : firstOffending hexDigit (hexStart text) (text.drop (hexStart text)) with _ | k
  · have hall := (firstOffending_eq_none _ _ _).1 hf
    by_cases h0 : text.length = hexStart text
    · exact .inr (.inl ⟨h0, by simp [parseHex, hf, h0]⟩)
    · have hlt : hexStart text < text.length := by omega
      have hn : ¬ text.length - hexStart text = 0 := by omega
      by_cases hv : PATTERN_MAX < digitsValue 16 hexDigit (text.drop (hexStart text))
      · exact .inr (.inr (.inl ⟨hlt, hall, hv, by simp [parseHex, hf, hn, hv]⟩))
      · exact .inr (.inr (.inr ⟨hlt, hall, by omega, by simp [parseHex, hf, hn, hv]⟩))
  · obtain ⟨j, rfl, hj, -⟩ := (firstOffending_eq_some _ _ _ _).1 hf
    simp only [List.length_drop] at hj
    exact .inl ⟨hexStart text + j, by omega, by omega, rfl, by simp [parseHex, hf]⟩

end Sys2Proof.Machine
end

