-- ==== Sys2Proof/Laws/Decode.lean ====
section
/-! SUPPORT. What the encoder, the bit strings of R54 and the decoder are made of. -/

namespace Sys2Proof

/-- The widths of the three fields make up a pattern (00_scope.md R8). -/
theorem field_widths : W_SIGN + W_EXP + W_MANT = 32 := rfl

@[simp] theorem bitsOf_length {n : Nat} (v : BitVec n) : (bitsOf v).length = n := by simp [bitsOf]

theorem natOfBits_snoc (bits : List Bool) (b : Bool) : natOfBits (bits ++ [b]) = 2 * natOfBits bits + b.toNat := by
  simp [natOfBits]

theorem natOfBits_append (xs ys : List Bool) :
    natOfBits (xs ++ ys) = natOfBits xs * 2 ^ ys.length + natOfBits ys := by
  induction ys using List.reverseRecOn with
  | nil => simp [natOfBits]
  | append_singleton ys y ih =>
    rw [← List.append_assoc, natOfBits_snoc, natOfBits_snoc, ih, List.length_append, List.length_singleton, pow_succ]
    ring

theorem natOfBits_lt (bits : List Bool) : natOfBits bits < 2 ^ bits.length := by
  induction bits using List.reverseRecOn with
  | nil => simp [natOfBits]
  | append_singleton bits b ih =>
    rw [natOfBits_snoc, List.length_append, List.length_singleton, pow_succ]
    cases b <;> simp <;> omega

@[simp] theorem padSlots_length {c : Config} {text : List CharCode} (h : text.length ≤ c.txtMax) :
    (padSlots c text).length = c.txtMax := by
  simp [padSlots]; omega

/-- Reading as many slots as the text has characters gives the text back. -/
theorem readSlots_padSlots (c : Config) (text : List CharCode) :
    readSlots text.length (padSlots c text) = text := Machine.readSlots_append _ _

/-- No two input-stage rows of the opcode map accept the same `in_sel` (30_encoding.md R67). -/
theorem inputRows_disjoint : inputRows.Pairwise fun r q => ∀ sel, ¬ (r.accepts sel = true ∧ q.accepts sel = true) := by
  decide

end Sys2Proof
end

