-- ==== Sys2Proof/Laws/PerInstr.lean ====
section
/-! SUPPORT. One family of statements about every operation as it is written: its mnemonic is one of the opcode map's
(spec/30_encoding.md R67), and an operation has a canonical vector exactly when it has a selector, which is the one its
row matches. -/

namespace Sys2Proof.Laws.SelectorMatchesRow

/-- The operation's mnemonic stands in the opcode map, and its canonical vector, where it has one, carries a selector
that the row of that mnemonic accepts. -/
def Statement (i : Instr) : Prop :=
  ∀ c : Config,
    (∀ v, encode c i = some v → ∃ r ∈ inputRows, r.mnemonic = i.mnemonic ∧ r.accepts v.inSel = true) ∧
    (encode c i = none → ∃ r ∈ outputRows, r.mnemonic = i.mnemonic)

theorem encode (w : Word) : Statement (.encode w) := by
  intro c
  refine ⟨fun v h => ?_, fun h => by cases h⟩
  cases h
  exact ⟨⟨"ENCODE", 0b00#2, 0b11#2⟩, by simp [inputRows], rfl, by simp [OpcodeRow.accepts]⟩

theorem decodeBin (text : List CharCode) : Statement (.decodeBin text) := by
  intro c
  refine ⟨fun v h => ?_, fun h => by cases h⟩
  cases h
  exact ⟨⟨"DECODE_BIN", 0b01#2, 0b11#2⟩, by simp [inputRows], rfl, by simp [OpcodeRow.accepts]⟩

theorem decodeHex (text : List CharCode) : Statement (.decodeHex text) := by
  intro c
  refine ⟨fun v h => ?_, fun h => by cases h⟩
  cases h
  exact ⟨⟨"DECODE_HEX", 0b10#2, 0b11#2⟩, by simp [inputRows], rfl, by simp [OpcodeRow.accepts]⟩

theorem toFloat : Statement .toFloat := fun _ => ⟨fun _ h => (by cases h), fun _ => by simp [outputRows, Instr.mnemonic]⟩
theorem fields : Statement .fields := fun _ => ⟨fun _ h => (by cases h), fun _ => by simp [outputRows, Instr.mnemonic]⟩
theorem classify : Statement .classify :=
  fun _ => ⟨fun _ h => (by cases h), fun _ => by simp [outputRows, Instr.mnemonic]⟩
theorem mantissaValue : Statement .mantissaValue :=
  fun _ => ⟨fun _ h => (by cases h), fun _ => by simp [outputRows, Instr.mnemonic]⟩
theorem unbiasedExponent : Statement .unbiasedExponent :=
  fun _ => ⟨fun _ h => (by cases h), fun _ => by simp [outputRows, Instr.mnemonic]⟩
theorem reconstruct : Statement .reconstruct :=
  fun _ => ⟨fun _ h => (by cases h), fun _ => by simp [outputRows, Instr.mnemonic]⟩

end Sys2Proof.Laws.SelectorMatchesRow
end

