-- ==== Sys2Proof/Laws/State.lean ====
section
/-! SUPPORT. One lemma per field per update of State, all true by unfolding the update once. -/

namespace Sys2Proof.Machine

variable (s : State) (f : OutputVector → OutputVector) (p : Word) (e : ParseError) (v : InputVector)

@[simp] theorem mapOut_cfg : (s.mapOut f).cfg = s.cfg := rfl
@[simp] theorem mapOut_inp : (s.mapOut f).inp = s.inp := rfl
@[simp] theorem mapOut_out : (s.mapOut f).out = f s.out := rfl
@[simp] theorem mapOut_pending : (s.mapOut f).pending = s.pending := rfl

@[simp] theorem drivePattern_cfg : (drivePattern p s).cfg = s.cfg := rfl
@[simp] theorem drivePattern_inp : (drivePattern p s).inp = s.inp := rfl
@[simp] theorem drivePattern_pending : (drivePattern p s).pending = s.pending := rfl
@[simp] theorem drivePattern_out :
    (drivePattern p s).out =
      { s.out with
        pat := p, patValid := true, err := false, errKind := 0b00#2, errPosValid := false, errPos := 0x00#8 } := rfl

@[simp] theorem raiseFormatError_cfg : (raiseFormatError e s).cfg = s.cfg := rfl
@[simp] theorem raiseFormatError_inp : (raiseFormatError e s).inp = s.inp := rfl
@[simp] theorem raiseFormatError_pending : (raiseFormatError e s).pending = s.pending := rfl
@[simp] theorem raiseFormatError_out :
    (raiseFormatError e s).out =
      { s.out with
        pat := 0x00000000#32, patValid := false, err := true, errKind := errorCode e.kind,
        errPosValid := e.position.isSome, errPos := BitVec.ofNat 8 (e.position.getD 0) } := rfl

@[simp] theorem finishInputStage_ok : finishInputStage (.ok p) s = drivePattern p s := rfl
@[simp] theorem finishInputStage_error : finishInputStage (.error e) s = raiseFormatError e s := rfl

@[simp] theorem present_cfg : (present s).cfg = s.cfg := rfl
@[simp] theorem present_inp : (present s).inp = nextVector s := rfl
@[simp] theorem present_out : (present s).out = s.out := rfl
@[simp] theorem present_pending : (present s).pending = s.pending.tail := rfl

@[simp] theorem presentNext_cfg : (presentNext v s).cfg = s.cfg := rfl
@[simp] theorem presentNext_inp : (presentNext v s).inp = s.inp := rfl
@[simp] theorem presentNext_out : (presentNext v s).out = s.out := rfl
@[simp] theorem presentNext_pending : (presentNext v s).pending = v :: s.pending.tail := rfl
@[simp] theorem nextVector_presentNext : nextVector (presentNext v s) = v := rfl

@[simp] theorem andThen_next (g : State → Host.Outcome State Fault Refusal) : andThen (.next s) g = g s := rfl
@[simp] theorem andThen_refused (r : Refusal) (g : State → Host.Outcome State Fault Refusal) :
    andThen (.refused r) g = .refused r := rfl

end Sys2Proof.Machine
end

