-- ==== Sys2Proof/Laws/Step.lean ====
section
/-! SUPPORT. What each operation and the output stage do to State, said once. -/

namespace Sys2Proof.Machine

/-- What the six output-stage operations leave on the output ports, from the ports the input stage drove
(10_state.md R32). -/
def outputStageResult (o : OutputVector) : OutputVector :=
  let cls := classCode (classOf (expOf o.pat) (mantOf o.pat))
  let drive := reconstructDrive o.patValid (signOf o.pat) (expOf o.pat) (mantOf o.pat) cls
  { o with
    fout := o.pat, sign := signOf o.pat, exp := expOf o.pat, mant := mantOf o.pat, cls := cls,
    mval := mantissaWord (mantOf o.pat), unbExp := unbiasedExponent (expOf o.pat),
    recon := drive.1, reconValid := drive.2 }

/-- The output stage always answers a next state, and changes the output ports alone. -/
theorem runAll_outputStage (s : State) : runAll outputStage s = .next (s.mapOut outputStageResult) := rfl

/-- A text operation either is refused for its length or ends with what its parser answers. -/
theorem runText_cases (parse : List CharCode → Except ParseError Word) (text : List CharCode) (s : State) :
    (s.cfg.txtMax < text.length ∧ runText parse text s = .refused .textTooLong) ∨
    (text.length ≤ s.cfg.txtMax ∧ runText parse text s = .next (finishInputStage (parse text) s)) := by
  by_cases h : s.cfg.txtMax < text.length
  · exact .inl ⟨h, if_pos h⟩
  · exact .inr ⟨Nat.le_of_not_lt h, if_neg h⟩

theorem runText_of_le {parse : List CharCode → Except ParseError Word} {text : List CharCode} {s : State}
    (h : text.length ≤ s.cfg.txtMax) : runText parse text s = .next (finishInputStage (parse text) s) :=
  if_neg (Nat.not_lt.2 h)

/-- A text operation that answers a next state ended with what its parser answers, on a text that fits. -/
theorem runText_next {parse : List CharCode → Except ParseError Word} {text : List CharCode} {s t : State}
    (h : runText parse text s = .next t) :
    text.length ≤ s.cfg.txtMax ∧ t = finishInputStage (parse text) s := by
  rcases runText_cases parse text s with ⟨-, hr⟩ | ⟨hl, hn⟩
  · rw [hr] at h; cases h
  · rw [hn] at h; cases h; exact ⟨hl, rfl⟩

@[simp] theorem finishInputStage_cfg (r : Except ParseError Word) (s : State) :
    (finishInputStage r s).cfg = s.cfg := by cases r <;> rfl
@[simp] theorem finishInputStage_inp (r : Except ParseError Word) (s : State) :
    (finishInputStage r s).inp = s.inp := by cases r <;> rfl
@[simp] theorem finishInputStage_pending (r : Except ParseError Word) (s : State) :
    (finishInputStage r s).pending = s.pending := by cases r <;> rfl

/-- The output stage after the input stage settles to R32's outputs, whatever the ports held. -/
theorem outputStageResult_finish (r : Except ParseError Word) (s : State) :
    outputStageResult (finishInputStage r s).out = settledOutputs r := by cases r <;> rfl

/-- The four ways `decode` reads `in_sel` (30_encoding.md R52). -/
theorem decode_cases (v : InputVector) :
    (v.inSel = 0b00#2 ∧ decode v = .ok (.encode v.inWord)) ∨
    (v.inSel = 0b01#2 ∧ decode v = .ok (.decodeBin v.text)) ∨
    (v.inSel = 0b10#2 ∧ decode v = .ok (.decodeHex v.text)) ∨
    (v.inSel = 0b11#2 ∧ decode v = .error .reservedSelector) := by
  have h : ∀ x : BitVec 2, x = 0b00#2 ∨ x = 0b01#2 ∨ x = 0b10#2 ∨ x = 0b11#2 := by decide
  rcases h v.inSel with h | h | h | h <;> simp [decode, h]

end Sys2Proof.Machine
end

