-- ==== Sys2Proof/Tests/Slice0.lean ====
section
/-! SUPPORT. Small tests, each of one step or one function. Expected values come from the tables of
spec/95_test_vectors.md (named at each test), never from the model. Then the witnesses: for each statement with
hypotheses, a state and operands that meet them. -/

namespace Sys2Proof.Tests

open Sys2Proof.Machine

/-! ### Helpers -/

/-- The vector with the given ports, the slots above the text 0, `TXT_MAX` = 64. -/
def vec (sel : BitVec 2) (word : Word) (text : List CharCode) : InputVector :=
  { inSel := sel, inWord := word, txtLen := BitVec.ofNat 8 text.length, txt := padSlots Config.reference text }

/-- Reset, with one vector to be presented. -/
def at1 (v : InputVector) : State := { State.reset with pending := [v] }

/-- The settled outputs of one transaction. -/
def outs (v : InputVector) : Option OutputVector := sampled (step (at1 v))

/-- `ENC w` and its error-free outputs as 95_test_vectors.md section 2 lists them. -/
def encRow (w : Word) (sign : BitVec 1) (exp : BitVec 8) (mant : BitVec 23) (cls : BitVec 3) (unb : BitVec 9)
    (mval recon : Word) (rv : Bool) : Prop :=
  outs (vec 0 w []) = some
    { patValid := true, pat := w, fout := w, sign := sign, exp := exp, mant := mant, cls := cls, unbExp := unb,
      mval := mval, recon := recon, reconValid := rv, err := false, errKind := 0, errPosValid := false, errPos := 0 }

/-- What a text transaction shows: `err`, `err_kind`, `err_pos_valid`, `err_pos`, `pat_valid`, `pat`. -/
def report (sel : BitVec 2) (text : List CharCode) : Option (Bool × BitVec 2 × Bool × BitVec 8 × Bool × Word) :=
  (outs (vec sel 0 text)).map fun o => (o.err, o.errKind, o.errPosValid, o.errPos, o.patValid, o.pat)

/-- `0` characters. -/
def zeros (n : Nat) : List CharCode := List.replicate n 0x30

/-! ### Well-formedness: each check refuses an ill-formed term -/

theorem smoke_binary_text_too_long : (Instr.decodeBin (zeros 65)).wellFormed Config.reference = false := by decide
theorem smoke_hex_text_too_long : (Instr.decodeHex (zeros 65)).wellFormed Config.reference = false := by decide
theorem smoke_text_that_fits : (Instr.decodeHex (zeros 64)).wellFormed Config.reference = true := by decide
theorem smoke_vector_with_63_slots :
    InputVector.wellFormed Config.reference { inSel := 0, inWord := 0, txtLen := 0, txt := zeros 63 } = false := by
  decide
theorem smoke_config_below_range : ¬ Config.wf { txtMax := 33 } := by decide
theorem smoke_config_above_range : ¬ Config.wf { txtMax := 256 } := by decide
theorem smoke_reserved_vector_is_not_legal : (vec 3 0 []).legal Config.reference = false := by decide
theorem smoke_long_text_is_not_legal : (vec 2 0 (zeros 65)).legal Config.reference = false := by decide

/-! ### Decoding: words written out from 30_encoding.md R52, R54 -/

/-- 95 E8: `sel=00 word=3F800000 len=00`, as the 42 bits of R54. -/
theorem test_decode_encode_word :
    parseCanonical
      ([false, false] ++
       [false, false, true, true, true, true, true, true, true, false, false, false, false, false, false, false,
        false, false, false, false, false, false, false, false, false, false, false, false, false, false, false, false]
       ++ [false, false, false, false, false, false, false, false]) = .ok (.encode 0x3F800000#32) := by decide

/-- 95 P3: `sel=01 word=00000000 len=03 txt=31 30 31`. -/
theorem test_decode_binary_word :
    parseCanonical
      ([false, true] ++ List.replicate 32 false ++ [false, false, false, false, false, false, true, true]
       ++ [false, false, true, true, false, false, false, true] ++ [false, false, true, true, false, false, false, false]
       ++ [false, false, true, true, false, false, false, true]) = .ok (.decodeBin [0x31, 0x30, 0x31]) := by decide

/-- 95 P3: `sel=10 word=00000000 len=03 txt=30 78 47`. -/
theorem test_decode_hex_word :
    parseCanonical
      ([true, false] ++ List.replicate 32 false ++ [false, false, false, false, false, false, true, true]
       ++ [false, false, true, true, false, false, false, false] ++ [false, true, true, true, true, false, false, false]
       ++ [false, true, false, false, false, true, true, true]) = .ok (.decodeHex [0x30, 0x78, 0x47]) := by decide

theorem test_decode_reserved_word :
    parseCanonical ([true, true] ++ List.replicate 40 false) = .error .reservedSelector := by decide
theorem test_decode_truncated_word : parseCanonical (List.replicate 41 false) = .error .truncated := by decide
theorem test_decode_missing_text :
    parseCanonical ([true, false] ++ List.replicate 39 false ++ [true]) = .error .textLengthMismatch := by decide
theorem test_decode_ignored_port_set :
    parseCanonical ([true, false] ++ [true] ++ List.replicate 39 false) = .error .notCanonical := by decide

/-- The ports themselves (R52): every code of `in_sel`; the output stage follows each (R67). -/
theorem test_decode_ports :
    decode (vec 0b00 0xC0000000#32 []) = .ok (.encode 0xC0000000#32) ∧
    decode (vec 0b01 7 [0x31]) = .ok (.decodeBin [0x31]) ∧ decode (vec 0b10 7 [0x31]) = .ok (.decodeHex [0x31]) ∧
    decode (vec 0b11 0 []) = .error .reservedSelector ∧
    decodeTransaction (vec 0b10 7 []) =
      .ok [.decodeHex [], .toFloat, .fields, .classify, .mantissaValue, .unbiasedExponent, .reconstruct] := by decide

/-- The opcode table's words, one for each value of `in_sel`; the output-stage rows (mask 0) are performed by all
three (R67). -/
theorem test_table_rows :
    decodeTableWord 8 0 = some (.encode 0) ∧ decodeTableWord 8 1 = some (.decodeBin []) ∧
    decodeTableWord 8 2 = some (.decodeHex []) ∧ decodeTableWord 8 3 = none ∧
    tableDecode 0b01#2 =
      ["DECODE_BIN", "TO_FLOAT", "FIELDS", "CLASSIFY", "MANTISSA_VALUE", "UNBIASED_EXPONENT", "RECONSTRUCT"] ∧
    tableDecode 0b11#2 = [] := by decide

/-- A fetched table word is what the next step runs. -/
theorem test_fetched_word_runs :
    nextVector (State.reset.withFetchWord 8 2) = vec 0b10 0 [] ∧
    (sampled (step (State.reset.withFetchWord 8 2))).map (·.err) = some true ∧
    (sampled (step (State.reset.withFetchWord 40 (0x3F800000 * 4)))).map (·.pat) = some 0x3F800000#32 := by decide

/-! ### ENCODE and the output stage: 95 section 2 -/

theorem test_enc_negative_zero :
    encRow 0x80000000 1 0x00 0x000000 1 0x181 0x3F800000 0x80000000 false := by unfold encRow; decide
theorem test_enc_denormalized :
    encRow 0x00400000 0 0x00 0x400000 2 0x181 0x3FC00000 0x00400000 true := by unfold encRow; decide
theorem test_enc_negative_denormalized :
    encRow 0x80000001 1 0x00 0x000001 2 0x181 0x3F800001 0x80000001 true := by unfold encRow; decide
theorem test_enc_smallest_normal :
    encRow 0x00800000 0 0x01 0x000000 0 0x182 0x3F800000 0x00800000 true := by unfold encRow; decide
theorem test_enc_third :
    encRow 0x3EAAAAAB 0 0x7D 0x2AAAAB 0 0x1FE 0x3FAAAAAB 0x3EAAAAAB true := by unfold encRow; decide
theorem test_enc_largest_normal :
    encRow 0xFF7FFFFF 1 0xFE 0x7FFFFF 0 0x07F 0x3FFFFFFF 0xFF7FFFFF true := by unfold encRow; decide
theorem test_enc_negative_infinity :
    encRow 0xFF800000 1 0xFF 0x000000 3 0x080 0x3F800000 0xFF800000 false := by unfold encRow; decide
theorem test_enc_nan_bit22_clear :
    encRow 0x7FBFFFFF 0 0xFF 0x3FFFFF 4 0x080 0x3FBFFFFF 0x7FC00000 false := by unfold encRow; decide
theorem test_enc_all_ones :
    encRow 0xFFFFFFFF 1 0xFF 0x7FFFFF 4 0x080 0x3FFFFFFF 0xFFC00000 false := by unfold encRow; decide

/-! ### DECODE_BIN: 95 section 3 -/

theorem test_bin_character_16_is_bit_15 :
    report 1 (zeros 16 ++ [0x31] ++ zeros 15) = some (false, 0, false, 0, true, 0x00008000) := by decide
theorem test_bin_length_before_digit :
    report 1 (List.replicate 33 0x32) = some (true, 0, false, 0, false, 0) := by decide
theorem test_bin_last_index : report 1 (zeros 31 ++ [0x32]) = some (true, 1, true, 31, false, 0) := by decide
theorem test_bin_no_prefix : report 1 ([0x30, 0x62] ++ zeros 30) = some (true, 1, true, 1, false, 0) := by decide

/-! ### DECODE_HEX: 95 section 4 -/

/-- `HEX "0X3f800000"` -/
theorem test_hex_mixed_case :
    report 2 [0x30, 0x58, 0x33, 0x66, 0x38, 0x30, 0x30, 0x30, 0x30, 0x30] =
      some (false, 0, false, 0, true, 0x3F800000) := by decide
/-- `HEX "00000000FFFFFFFF"` -/
theorem test_hex_sixteen_digits :
    report 2 (zeros 8 ++ List.replicate 8 0x46) = some (false, 0, false, 0, true, 0xFFFFFFFF) := by decide
/-- `HEX "100000000"` -/
theorem test_hex_overflow : report 2 (0x31 :: zeros 8) = some (true, 2, false, 0, false, 0) := by decide
/-- `HEX "0x"` -/
theorem test_hex_prefix_only : report 2 [0x30, 0x78] = some (true, 0, false, 0, false, 0) := by decide
/-- `HEX "0x0x1"` -/
theorem test_hex_second_prefix :
    report 2 [0x30, 0x78, 0x30, 0x78, 0x31] = some (true, 1, true, 3, false, 0) := by decide
/-- `HEX "0xFFFFFFFFFG"` -/
theorem test_hex_invalid_before_overflow :
    report 2 ([0x30, 0x78] ++ List.replicate 9 0x46 ++ [0x47]) = some (true, 1, true, 11, false, 0) := by decide
/-- The codes beside the digits of R56: `/`, `:`, `@`, `G`, `` ` ``, `g` and a code above 0x7F are no digits. -/
theorem test_hex_digit_edges :
    [0x2F#8, 0x30, 0x39, 0x3A, 0x40, 0x41, 0x46, 0x47, 0x60, 0x61, 0x66, 0x67, 0xB0].map hexDigit =
      [none, some 0, some 9, none, none, some 10, some 15, none, none, some 10, some 15, none, none] := by decide

/-! ### FormatError: 95 E7 and R135 -/

theorem test_error_forces_outputs :
    outs (vec 1 0 ([0x31, 0x30, 0x32] ++ zeros 29)) = some
      { patValid := false, pat := 0, fout := 0, sign := 0, exp := 0, mant := 0, cls := 1, unbExp := 0x181,
        mval := 0x3F800000, recon := 0, reconValid := false, err := true, errKind := 1, errPosValid := true,
        errPos := 2 } := by decide
theorem test_error_is_reported_with_its_input :
    (outs (vec 2 0 [0x30, 0x78, 0x47])).map (reportedError (vec 2 0 [0x30, 0x78, 0x47])) =
      some (some ⟨.invalidDigit, vec 2 0 [0x30, 0x78, 0x47], some 2⟩) := by decide

/-! ### Refusals and ignored ports: 95 section 5 -/

theorem test_reserved_selector_is_refused : step (at1 (vec 3 0 [])) = .refused .reservedSelector := by rfl
theorem test_long_binary_text_is_refused : step (at1 (vec 1 0 (zeros 65))) = .refused .textTooLong := by rfl
theorem test_long_hex_text_is_refused : step (at1 (vec 2 0 (zeros 65))) = .refused .textTooLong := by rfl
theorem test_encode_ignores_the_text :
    (outs (vec 0 0x3F800000 (zeros 65))).map (fun o => (o.pat, o.err)) = some (0x3F800000, false) := by decide
theorem test_hex_of_txt_max_zeros :
    (outs (vec 2 0 (zeros 64))).map (fun o => (o.pat, o.cls)) = some (0, 1) := by decide

/-! ### Exact values: 95 section 2 -/

theorem test_value_of_half_denormal : f32 0x00400000#32 = .number (1 / 2 ^ 127) := by
  rw [f32, show classOf (expOf 0x00400000#32) (mantOf 0x00400000#32) = .denormalized by decide,
    show signOf 0x00400000#32 = 0#1 by decide, show mantOf 0x00400000#32 = 0x400000#23 by decide]
  norm_num [fieldsValue, denormalizedValue, signFactor, DENORMAL_EXPONENT]

theorem test_value_of_negative_two : f32 0xC0000000#32 = .number (-2) := by
  rw [f32, show classOf (expOf 0xC0000000#32) (mantOf 0xC0000000#32) = .normal by decide,
    show signOf 0xC0000000#32 = 1#1 by decide, show expOf 0xC0000000#32 = 128#8 by decide,
    show mantOf 0xC0000000#32 = 0#23 by decide]
  norm_num [fieldsValue, normalValue, signFactor, BIAS]

theorem test_value_of_specials :
    f32 0x80000000#32 = .zero true ∧ f32 0x7F800000#32 = .infinity false ∧ f32 0xFF800001#32 = .nan := by decide

/-! ### The transaction notation: 30_encoding.md R65, R66 -/

/-- `ENC 0x3F800000` and `HEXOF 0x80000000 ; zero` -/
theorem test_assemble_constants :
    assemble [0x45, 0x4E, 0x43, 0x20, 0x30, 0x78, 0x33, 0x46, 0x38, 0x30, 0x30, 0x30, 0x30, 0x30] =
      some (.encode 0x3F800000) ∧
    assemble [0x48, 0x45, 0x58, 0x4F, 0x46, 0x20, 0x30, 0x78, 0x38, 0x30, 0x30, 0x30, 0x30, 0x30, 0x30, 0x30, 0x20,
        0x3B, 0x20, 0x7A, 0x65, 0x72, 0x6F] =
      some (.decodeHex [0x30, 0x78, 0x38, 0x30, 0x30, 0x30, 0x30, 0x30, 0x30, 0x30]) := by decide

/-- `BIN "1\xFF\"\\0"`, and a string that does not end. -/
theorem test_assemble_escapes :
    assemble [0x42, 0x49, 0x4E, 0x20, 0x22, 0x31, 0x5C, 0x78, 0x46, 0x46, 0x5C, 0x22, 0x5C, 0x5C, 0x30, 0x22] =
      some (.decodeBin [0x31, 0xFF, 0x22, 0x5C, 0x30]) ∧
    assemble [0x42, 0x49, 0x4E, 0x20, 0x22, 0x31] = none := by decide

/-! ### Witnesses: the hypotheses of each statement can be met together, at the edges of its ranges -/

/-- The state a step leaves, none where it answers no next state. -/
def after (s : State) : Option State :=
  match step s with
  | .next t    => some t
  | .fault _   => none
  | .refused _ => none

/-- The state after the transaction of `v` from reset. -/
def settledAfter (v : InputVector) : State := (after (at1 v)).getD State.reset

theorem witness_ports_round_trip :
    Config.reference.wf ∧ (Instr.decodeHex (zeros 64)).wellFormed Config.reference = true ∧
    encode Config.reference (.decodeHex (zeros 64)) = some (vec 2 0 (zeros 64)) ∧
    encode Config.reference (.decodeBin []) = some (vec 1 0 []) ∧
    encode Config.reference (.encode 5) = some (vec 0 5 []) := by decide

theorem witness_canonical_form :
    Config.reference.wf ∧ (Instr.decodeBin [0xFF]).wellFormed Config.reference = true ∧
    canonicalForm (.decodeBin [0xFF]) =
      some ([false, true] ++ List.replicate 32 false ++ List.replicate 7 false ++ [true] ++ List.replicate 8 true) ∧
    (canonicalForm (.encode 0)).isSome = true ∧ (canonicalForm (.decodeHex [])).isSome = true := by decide

theorem witness_canonical_form_read :
    parseCanonical (List.replicate 42 false) = .ok (.encode 0) ∧
    parseCanonical ([true, false] ++ List.replicate 40 false) = .ok (.decodeHex []) := by decide

theorem witness_step_runs_decoded :
    decode (nextVector State.reset) = .ok (.encode 0) ∧
    decode (nextVector (at1 (vec 3 0 []))) = .error .reservedSelector := by decide

theorem witness_eval_gives_outputs :
    (eval State.reset.cfg (nextVector (at1 (vec 2 0 (zeros 64))))).isSome = true ∧
    eval State.reset.cfg (nextVector (at1 (vec 2 0 (zeros 65)))) = none := by decide

theorem witness_safe_next : SafeNext (at1 (vec 1 0 (zeros 64))) ∧ SafeNext (at1 (vec 0 0 (zeros 65))) := by
  constructor <;> (unfold SafeNext; decide)

theorem settledAfter_error : step (at1 (vec 2 0 [0x30, 0x78, 0x47])) = .next (settledAfter (vec 2 0 [0x30, 0x78, 0x47])) :=
  rfl

theorem witness_invariant :
    Inv (settledAfter (vec 2 0 [0x30, 0x78, 0x47])) ∧
    ∃ t, step (settledAfter (vec 2 0 [0x30, 0x78, 0x47])) = .next t := by
  refine ⟨⟨⟨by decide, by decide, by decide⟩, by unfold Settled; rfl, ?_, by unfold PositionInText; decide⟩, _, rfl⟩
  constructor <;> decide

theorem witness_two_pasts :
    State.reset.cfg = (settledAfter (vec 2 0 [0x30, 0x78, 0x47])).cfg ∧
    nextVector { State.reset with pending := [vec 0 7 []] } =
      nextVector { settledAfter (vec 2 0 [0x30, 0x78, 0x47]) with pending := [vec 0 7 [], vec 3 0 []] } := by decide

/-- Vectors that differ only in ignored ports, for each selector. -/
theorem witness_ignored_ports :
    (vec 0 7 [] ≠ vec 0 7 (zeros 65) ∧ (vec 0 7 []).inWord = (vec 0 7 (zeros 65)).inWord) ∧
    (vec 1 7 [0x31] ≠ vec 1 8 [0x31] ∧ (vec 1 7 [0x31]).txtLen = (vec 1 8 [0x31]).txtLen ∧
      ∀ k, k < 1 → (vec 1 7 [0x31]).txt.getD k 0 = (vec 1 8 [0x31]).txt.getD k 0) ∧
    vec 3 7 [] ≠ vec 3 8 [0x31] := by decide

theorem witness_same_vector :
    State.reset.pending = [] ∧ step State.reset = .next State.reset := ⟨rfl, rfl⟩

theorem witness_exec_next :
    (∃ t, exec (.encode 1) State.reset = .next t) ∧ (∃ t, exec (.decodeBin []) State.reset = .next t) ∧
    (∃ t, exec (.decodeHex []) State.reset = .next t) ∧ (∃ t, exec .toFloat State.reset = .next t) ∧
    (∃ t, exec .fields State.reset = .next t) ∧ (∃ t, exec .classify State.reset = .next t) ∧
    (∃ t, exec .mantissaValue State.reset = .next t) ∧ (∃ t, exec .unbiasedExponent State.reset = .next t) ∧
    (∃ t, exec .reconstruct State.reset = .next t) :=
  ⟨⟨_, rfl⟩, ⟨_, rfl⟩, ⟨_, rfl⟩, ⟨_, rfl⟩, ⟨_, rfl⟩, ⟨_, rfl⟩, ⟨_, rfl⟩, ⟨_, rfl⟩, ⟨_, rfl⟩⟩

theorem witness_encode_selected : (nextVector (at1 (vec 0 0xFFFFFFFF []))).inSel = 0b00#2 := by decide

theorem witness_binary_text_fits :
    State.reset.cfg.wf ∧ (zeros 64).length ≤ State.reset.cfg.txtMax ∧
    (zeros 32).length = 32 ∧ (∀ k, k < 32 → (zeros 32).getD k 0 = 0x30#8) := by decide

/-- Each clause of the binary text's errors: lengths 31 and 33; first and last index. -/
theorem witness_binary_text_errors :
    State.reset.cfg.wf ∧ (zeros 31).length ≠ 32 ∧ (zeros 33).length ≠ 32 ∧
    (0x32#8 :: zeros 31).length = 32 ∧ (0x32#8 :: zeros 31).getD 0 0 ≠ 0x30#8 ∧
    (0x32#8 :: zeros 31).getD 0 0 ≠ 0x31#8 ∧
    (zeros 31 ++ [0x2F#8]).length = 32 ∧ (zeros 31 ++ [0x2F#8]).getD 31 0 ≠ 0x30#8 ∧
    (zeros 31 ++ [0x2F#8]).getD 31 0 ≠ 0x31#8 ∧
    (∀ j, j < 31 → (zeros 31 ++ [0x2F#8]).getD j 0 = 0x30#8) := by decide

/-- The largest value that is accepted, after a prefix, and the value 0 of one digit. -/
theorem witness_hex_value :
    (let text := [0x30#8, 0x78] ++ List.replicate 8 0x66
     text.length ≤ State.reset.cfg.txtMax ∧ hexStart text = 2 ∧
     (∀ j, j < 8 → (hexDigit (text.getD (2 + j) 0)).isSome = true) ∧
     ((List.range 8).map fun j => (hexDigit (text.getD (2 + j) 0)).getD 0 * 16 ^ (8 - 1 - j)).sum = 0xFFFFFFFF) ∧
    hexStart [0x30#8] = 0 ∧ (hexDigit 0x30#8) = some 0 := by decide

/-- Each clause of the hexadecimal text's errors: `x` alone, `0x` alone, and 2^32. -/
theorem witness_hex_errors :
    State.reset.cfg.wf ∧ hexStart [0x78#8] = 0 ∧ hexDigit 0x78#8 = none ∧
    [0x30#8, 0x78].length = hexStart [0x30#8, 0x78] ∧ ([] : List CharCode).length = hexStart [] ∧
    (let text := 0x31#8 :: zeros 8
     hexStart text = 0 ∧ (∀ j, j < 9 → (hexDigit (text.getD (0 + j) 0)).isSome = true) ∧
     ((List.range 9).map fun j => (hexDigit (text.getD (0 + j) 0)).getD 0 * 16 ^ (9 - 1 - j)).sum = 2 ^ 32) := by
  decide

theorem witness_text_too_long : State.reset.cfg.txtMax < (zeros 65).length := by decide

theorem witness_overflow_digits :
    (0x31#8 :: zeros 8) = (0x31#8 :: zeros 8).drop (hexStart (0x31#8 :: zeros 8)) ∧
    (∀ c ∈ 0x31#8 :: zeros 8, (hexDigit c).isSome = true) ∧ (∀ c ∈ zeros 9, (hexDigit c).isSome = true) ∧
    hexStart (zeros 9) = 0 := by decide

theorem overflow_text_runs :
    (∃ t, exec (.decodeHex (0x31#8 :: zeros 8)) State.reset = .next t) ∧
    (∃ t, exec (.decodeHex (zeros 9)) State.reset = .next t) := ⟨⟨_, rfl⟩, ⟨_, rfl⟩⟩

theorem witness_prefix_shift :
    State.reset.cfg.wf ∧ (zeros 62).length + 2 ≤ State.reset.cfg.txtMax ∧ hexStart (zeros 62) = 0 ∧
    hexStart [0x47#8] = 0 ∧ hexStart ([] : List CharCode) = 0 := by decide

theorem prefix_texts_run :
    (∃ t, exec (.decodeHex (zeros 62)) State.reset = .next t) ∧
    (∃ t, exec (.decodeHex (0x30#8 :: 0x58#8 :: zeros 62)) State.reset = .next t) := ⟨⟨_, rfl⟩, ⟨_, rfl⟩⟩

theorem witness_leading_zeros : State.reset.cfg.wf ∧ 56 + 8 ≤ State.reset.cfg.txtMax := by decide

/-- Accepted and refused texts of both operations reach a next state. -/
theorem witness_text_results :
    (∃ t, exec (.decodeBin (zeros 32)) State.reset = .next t ∧ t.out.err = false) ∧
    (∃ t, exec (.decodeBin (zeros 31)) State.reset = .next t ∧ t.out.err = true) ∧
    (∃ t, exec (.decodeHex (zeros 1)) State.reset = .next t ∧ t.out.err = false) ∧
    (∃ t, exec (.decodeHex [0x67]) State.reset = .next t ∧ t.out.err = true) :=
  ⟨⟨_, rfl, by decide⟩, ⟨_, rfl, by decide⟩, ⟨_, rfl, by decide⟩, ⟨_, rfl, by decide⟩⟩

theorem witness_round_trip_vectors :
    State.reset.cfg.wf ∧ (encode State.reset.cfg (.encode 0x80000000)).isSome = true ∧
    (encode State.reset.cfg (.decodeBin (binText 0x80000000))).isSome = true ∧
    (encode State.reset.cfg (.decodeHex (hexText 0x80000000))).isSome = true := by decide

/-- A settled transaction of each kind: each error cause, each class, with and without a pattern. -/
theorem witness_settled_transactions :
    (outs (vec 1 0 (zeros 31))).map (fun o => (o.err, o.errKind, o.patValid)) = some (true, 0, false) ∧
    (outs (vec 2 0 [])).map (fun o => (o.err, o.errKind, o.patValid)) = some (true, 0, false) ∧
    (outs (vec 1 0 (zeros 31 ++ [0x62]))).map (fun o => (o.err, o.errKind)) = some (true, 1) ∧
    (outs (vec 2 0 [0x47])).map (fun o => (o.err, o.errKind)) = some (true, 1) ∧
    (outs (vec 2 0 (0x31 :: zeros 8))).map (fun o => (o.err, o.errKind)) = some (true, 2) ∧
    (outs (vec 0 0x7F7FFFFF [])).map (fun o => (o.cls, o.reconValid)) = some (0, true) ∧
    (outs (vec 0 0 [])).map (·.cls) = some 1 ∧
    (outs (vec 0 1 [])).map (fun o => (o.cls, o.patValid, o.reconValid)) = some (2, true, true) ∧
    (outs (vec 0 0x7F800000 [])).map (·.cls) = some 3 ∧ (outs (vec 0 0x7F800001 [])).map (·.cls) = some 4 := by decide

/-- Two states that agree on `exp` and `mant` and differ in the sign. -/
theorem witness_same_exp_and_mant :
    (settledAfter (vec 0 0x7F800001 [])).out.exp = (settledAfter (vec 0 0xFF800001 [])).out.exp ∧
    (settledAfter (vec 0 0x7F800001 [])).out.mant = (settledAfter (vec 0 0xFF800001 [])).out.mant ∧
    (settledAfter (vec 0 0x7F800001 [])).out.sign ≠ (settledAfter (vec 0 0xFF800001 [])).out.sign := by decide

/-- The operand ports of each clause of RECONSTRUCT. -/
theorem witness_reconstruct_operands :
    (settledAfter (vec 1 0 [])).out.patValid = false ∧
    (settledAfter (vec 0 0x00800000 [])).out.cls = 0 ∧ (settledAfter (vec 0 0x807FFFFF [])).out.cls = 2 ∧
    (settledAfter (vec 0 0x80000000 [])).out.cls = 1 ∧ (settledAfter (vec 0 0xFF800000 [])).out.cls = 3 ∧
    (settledAfter (vec 0 0xFFC00000 [])).out.cls = 4 ∧ (settledAfter (vec 0 0xFFC00000 [])).out.patValid = true := by
  decide

theorem witness_equal_values :
    f32 0x80000000#32 = f32 0x80000000#32 ∧ f32 0x80000000#32 ≠ .nan ∧ f32 0x7F800000#32 ≠ .nan := by decide

end Sys2Proof.Tests
end

section
/-! PROOFS. What DECODE_BIN accepts and the pattern it drives (spec/30_encoding.md R55). -/

namespace Sys2Proof.Machine

/-! ### The input stage and its parser's answer -/

theorem exec_decodeBin_of_le {text : List CharCode} {s : State} (h : text.length ≤ s.cfg.txtMax) :
    exec (.decodeBin text) s = .next (finishInputStage (parseBin text) s) := runText_of_le h

@[simp] theorem finishInputStage_patValid (r : Except ParseError Word) (s : State) :
    (finishInputStage r s).out.patValid = r.isOk := by cases r <;> rfl

/-! ### Binary digit strings -/

/-- The digits' membership form, which the parsers' laws use, and the indexed form, which the claims use. -/
theorem forall_mem_binDigit_isSome_iff (text : List CharCode) :
    (∀ c ∈ text, (binDigit c).isSome = true) ↔
      ∀ k, k < text.length → text.getD k 0 = 0x30#8 ∨ text.getD k 0 = 0x31#8 := by
  simp only [List.forall_mem_iff_getElem, binDigit_isSome]
  refine forall₂_congr fun k hk => ?_
  rw [List.getD_eq_getElem _ _ hk]

theorem binDigit_getD_zero (c : CharCode) : (binDigit c).getD 0 = (c == 0x31#8).toNat := by
  by_cases h0 : c = 0x30#8
  · subst h0; rfl
  · by_cases h1 : c = 0x31#8
    · subst h1; rfl
    · simp [binDigit, h0, h1, beq_eq_false_iff_ne.2 h1]

/-- Bit j of a binary digit string's value is its j-th digit from the right; above the string it is 0. -/
theorem testBit_digitsValue_binDigit (text : List CharCode) (j : Nat) :
    (digitsValue 2 binDigit text).testBit j = (text.reverse.getD j 0 == 0x31#8) := by
  induction text using List.reverseRecOn generalizing j with
  | nil => simp
  | append_singleton text c ih =>
    have hbit : digitsValue 2 binDigit (text ++ [c]) = Nat.bit (c == 0x31#8) (digitsValue 2 binDigit text) := by
      rw [digitsValue_snoc, binDigit_getD_zero, Nat.bit_val]
    rw [hbit, List.reverse_concat]
    cases j with
    | zero => exact Nat.testBit_bit_zero _ _
    | succ j => exact (Nat.testBit_bit_succ _ _ _).trans (ih j)

/-! ### DECODE_BIN's parser -/

theorem parseBin_isOk_iff (text : List CharCode) :
    (parseBin text).isOk = true ↔
      text.length = 32 ∧ ∀ k, k < 32 → text.getD k 0 = 0x30#8 ∨ text.getD k 0 = 0x31#8 := by
  have hdigits := forall_mem_binDigit_isSome_iff text
  obtain ⟨hl, hp⟩ | ⟨hl, k, -, hf, hp⟩ | ⟨hl, hall, hp⟩ := parseBin_cases text
  · simp [hp, hl, Except.isOk, Except.toBool]
  · have hbad : ¬ ∀ c ∈ text, (binDigit c).isSome = true := fun hall => by
      rw [(firstOffending_eq_none _ _ _).2 hall] at hf
      cases hf
    rw [hdigits, hl] at hbad
    exact iff_of_false (by simp [hp, Except.isOk, Except.toBool]) fun h => hbad h.2
  · rw [hdigits, hl] at hall
    exact iff_of_true (by rw [hp]; rfl) ⟨hl, hall⟩

/-- Character k of an accepted binary text is bit 31 - k of the pattern (30_encoding.md R55). -/
theorem getLsbD_of_parseBin_eq_ok {text : List CharCode} {p : Word} (h : parseBin text = .ok p) {k : Nat}
    (hk : k < 32) : p.getLsbD (31 - k) = (text.getD k 0 == 0x31#8) := by
  obtain ⟨-, hp⟩ | ⟨-, j, -, -, hp⟩ | ⟨hl, -, hp⟩ := parseBin_cases text
  · rw [hp] at h; cases h
  · rw [hp] at h; cases h
  · rw [hp] at h
    cases h
    have hj : 31 - k < text.length := by omega
    have hrev : text.length - 1 - (31 - k) = k := by omega
    rw [BitVec.getLsbD_ofNat, testBit_digitsValue_binDigit, List.getD_reverse _ hj, hrev]
    simp only [show 31 - k < 32 by omega, decide_true, Bool.true_and]

/-- Settles O20: the text fits, so DECODE_BIN ends as its parser answers, which is `ok` exactly on 32 binary digits. -/
theorem binaryTextIsValidExactly : Obligations.BinaryTextIsValidExactly := by
  intro s text hfits
  refine ⟨_, exec_decodeBin_of_le hfits, ?_, ?_⟩
  · rw [finishInputStage_patValid, parseBin_isOk_iff]
  · rcases hp : parseBin text with e | p
    · intro hvalid
      cases hvalid
    · exact fun _ => ⟨fun k hk => getLsbD_of_parseBin_eq_ok hp hk, rfl⟩

end Sys2Proof.Machine
end

section
/-! PROOFS. What a settled transaction shows, what an accepted text says of the pattern (spec/40_decomposer.md R85),
and the operations TO_FLOAT and FIELDS (R86, R87). -/

namespace Sys2Proof.Machine

/-! ### What a step that answers a next state did -/

theorem step_eq_of_decode_ok {s : State} {i : Instr} (h : decode (nextVector s) = .ok i) :
    step s = andThen (exec i (present s)) (runAll outputStage) := by
  simp only [step, transact, decodeTransaction, h, runAll]

theorem step_eq_of_decode_error {s : State} {e : DecodeError} (h : decode (nextVector s) = .error e) :
    step s = .refused .reservedSelector := by
  simp only [step, transact, decodeTransaction, h]

/-- The input stage alone: what it answers where an operation is read and not refused (10_state.md R32). -/
theorem exec_next_of_decode_ok {v : InputVector} {i : Instr} {s t : State} (hi : decode v = .ok i)
    (h : exec i s = .next t) : ∃ r, inputStage s.cfg v = some r ∧ t = finishInputStage r s := by
  obtain ⟨hsel, hd⟩ | ⟨hsel, hd⟩ | ⟨hsel, hd⟩ | ⟨-, hd⟩ := decode_cases v <;> rw [hd] at hi <;> cases hi
  · cases h
    exact ⟨.ok v.inWord, by simp [inputStage, hsel], rfl⟩
  · obtain ⟨hfits, ht⟩ := runText_next h
    rw [text_length] at hfits
    exact ⟨parseBin v.text, by simp [inputStage, hsel, Nat.not_lt.2 hfits], ht⟩
  · obtain ⟨hfits, ht⟩ := runText_next h
    rw [text_length] at hfits
    exact ⟨parseHex v.text, by simp [inputStage, hsel, Nat.not_lt.2 hfits], ht⟩

/-- A step that answers a next state settled the outputs of R32 for the vector it presented. -/
theorem step_next {s t : State} (h : step s = .next t) :
    ∃ r, inputStage s.cfg (nextVector s) = some r ∧
      t = { cfg := s.cfg, inp := nextVector s, out := settledOutputs r, pending := s.pending.tail } := by
  rcases hd : decode (nextVector s) with e | i
  · rw [step_eq_of_decode_error hd] at h
    cases h
  · rw [step_eq_of_decode_ok hd] at h
    rcases hx : exec i (present s) with u | f | f <;> rw [hx] at h
    · obtain ⟨r, hr, rfl⟩ := exec_next_of_decode_ok hd hx
      rw [andThen_next, runAll_outputStage, State.mapOut, outputStageResult_finish] at h
      cases h
      exact ⟨r, hr, by simp⟩
    · cases h
    · cases h

/-! ### The settled output ports -/

@[simp] theorem settledOutputs_fout (r : Except ParseError Word) :
    (settledOutputs r).fout = (settledOutputs r).pat := rfl
@[simp] theorem settledOutputs_sign (r : Except ParseError Word) :
    (settledOutputs r).sign = signOf (settledOutputs r).pat := rfl
@[simp] theorem settledOutputs_exp (r : Except ParseError Word) :
    (settledOutputs r).exp = expOf (settledOutputs r).pat := rfl
@[simp] theorem settledOutputs_mant (r : Except ParseError Word) :
    (settledOutputs r).mant = mantOf (settledOutputs r).pat := rfl

/-- Without a valid pattern the settled pattern is the forced one (60_exceptions.md R135). -/
theorem settledOutputs_pat_of_not_valid {r : Except ParseError Word} (h : (settledOutputs r).patValid = false) :
    (settledOutputs r).pat = 0x00000000#32 := by
  cases r with
  | ok p => cases h
  | error e => rfl

/-! ### TO_FLOAT -/

/-- Settles O35: TO_FLOAT by its own definition, a transaction by the outputs it settles to. -/
theorem toFloatDrivesThePattern : Obligations.ToFloatDrivesThePattern := by
  refine ⟨fun s => rfl, fun s t h => ?_⟩
  obtain ⟨r, -, rfl⟩ := step_next h
  exact ⟨settledOutputs_fout r, settledOutputs_pat_of_not_valid⟩

/-! ### FIELDS -/

theorem signOf_getLsbD_zero (p : Word) : (signOf p).getLsbD 0 = p.getLsbD 31 := by
  simp [signOf]

theorem expOf_getLsbD (p : Word) {j : Nat} (hj : j < 8) : (expOf p).getLsbD j = p.getLsbD (23 + j) := by
  simp [expOf, hj]

theorem mantOf_getLsbD (p : Word) {j : Nat} (hj : j < 23) : (mantOf p).getLsbD j = p.getLsbD j := by
  simp [mantOf, hj]

/-- 10_state.md R28. -/
theorem fields_sum (p : Word) :
    (signOf p).toNat * 2 ^ 31 + (expOf p).toNat * 2 ^ 23 + (mantOf p).toNat = p.toNat := by
  rw [← pack_toNat, pack_fields]

/-- Settles O36: FIELDS through its three bit fields and their sum, a transaction by the outputs it settles to. -/
theorem fieldsSplitThePattern : Obligations.FieldsSplitThePattern := by
  refine ⟨fun s => ⟨_, rfl, rfl, ?_⟩, fun s t h => ?_⟩
  · exact ⟨signOf_getLsbD_zero _, fun _ => expOf_getLsbD _, fun _ => mantOf_getLsbD _, fields_sum _⟩
  · obtain ⟨r, -, rfl⟩ := step_next h
    refine ⟨signOf_toNat _, expOf_toNat _, mantOf_toNat _, fun hv => ?_⟩
    simp only [settledOutputs_sign, settledOutputs_exp, settledOutputs_mant, settledOutputs_pat_of_not_valid hv]
    decide

/-! ### Accepted texts -/

@[simp] theorem binText_length (w : Word) : (binText w).length = 32 := by simp [binText]

theorem binText_getElem (w : Word) (k : Nat) (hk : k < (binText w).length) :
    (binText w)[k] = if w.getLsbD (31 - k) then 0x31#8 else 0x30#8 := by
  simp [binText]

theorem eq_zero_or_one_of_mem_binText {w : Word} {c : CharCode} (h : c ∈ binText w) : c = 0x30#8 ∨ c = 0x31#8 := by
  obtain ⟨k, -, rfl⟩ := List.mem_map.1 h
  split
  · exact .inr rfl
  · exact .inl rfl

/-- The text DECODE_BIN accepts is, character for character, the rendering of the pattern it drives. -/
theorem eq_binText_of_parseBin_eq_ok {text : List CharCode} {p : Word} (h : parseBin text = .ok p) :
    text = binText p := by
  obtain ⟨hl, hdigit⟩ := (parseBin_isOk_iff text).1 (by rw [h]; rfl)
  refine List.ext_getElem (by rw [hl, binText_length]) fun k hk hk' => ?_
  have hbit := getLsbD_of_parseBin_eq_ok h (hl ▸ hk)
  have hchar := hdigit k (hl ▸ hk)
  rw [List.getD_eq_getElem _ _ hk] at hbit hchar
  rw [binText_getElem, hbit]
  obtain h0 | h1 := hchar
  · rw [h0]; rfl
  · rw [h1]; rfl

/-- The text has at least one digit after its optional prefix, every digit is valid, and together they have the value
`v` (40_decomposer.md R83). -/
def HexTextHasValue (text : List CharCode) (v : Nat) : Prop :=
  text.drop (hexStart text) ≠ [] ∧ (∀ c ∈ text.drop (hexStart text), (hexDigit c).isSome = true) ∧
    digitsValue 16 hexDigit (text.drop (hexStart text)) = v

/-- The text DECODE_HEX accepts has exactly the value of the pattern it drives. -/
theorem hexTextHasValue_of_parseHex_eq_ok {text : List CharCode} {p : Word} (h : parseHex text = .ok p) :
    HexTextHasValue text p.toNat := by
  obtain ⟨k, -, -, -, hp⟩ | ⟨-, hp⟩ | ⟨-, -, -, hp⟩ | ⟨hlt, hall, hmax, hp⟩ := parseHex_cases text <;>
    rw [hp] at h <;> cases h
  have hfits : digitsValue 16 hexDigit (text.drop (hexStart text)) < 2 ^ 32 := Nat.lt_succ_of_le hmax
  exact ⟨by simpa using hlt, hall, by rw [BitVec.toNat_ofNat, Nat.mod_eq_of_lt hfits]⟩

/-- However a text operation ends: if what its parser accepts stands in the relation `P` to the pattern, which makes
it acceptable (`Q`), then the text stands in that relation to the pattern on the ports or the error is raised. -/
theorem finishInputStage_accepts_only {r : Except ParseError Word} {s : State} {P : Word → Prop} {Q : Prop}
    (hP : ∀ p, r = .ok p → P p) (hQ : ∀ p, P p → Q) :
    ((finishInputStage r s).out.err = true ∨ P (finishInputStage r s).out.pat) ∧
    (¬ Q → (finishInputStage r s).out.err = true) ∧
    ((finishInputStage r s).out.err = true →
      (finishInputStage r s).out.pat = 0 ∧ (finishInputStage r s).out.patValid = false) := by
  cases r with
  | error e => exact ⟨.inl rfl, fun _ => rfl, fun _ => ⟨rfl, rfl⟩⟩
  | ok p =>
    have hp : P p := hP p rfl
    exact ⟨.inr hp, fun hq => absurd (hQ p hp) hq, fun herr => by cases herr⟩

/-- Settles O29: a text operation ends as its parser answers, and each parser accepts a text for its pattern alone. -/
theorem textIsNeverTruncatedOrWrapped : Obligations.TextIsNeverTruncatedOrWrapped := by
  intro s t text
  constructor
  · intro h
    obtain ⟨-, rfl⟩ := runText_next h
    refine finishInputStage_accepts_only (P := fun p => text = binText p)
      (fun _ => eq_binText_of_parseBin_eq_ok) ?_
    rintro p rfl
    exact ⟨binText_length p, fun _ => eq_zero_or_one_of_mem_binText⟩
  · intro h
    obtain ⟨-, rfl⟩ := runText_next h
    refine finishInputStage_accepts_only
      (P := fun p => HexTextHasValue text p.toNat) (fun _ => hexTextHasValue_of_parseHex_eq_ok) ?_
    rintro p ⟨hne, hall, hv⟩
    exact ⟨hne, hall, hv ▸ Nat.le_of_lt_succ p.isLt⟩

end Sys2Proof.Machine
end

section
/-! PROOFS. What CLASSIFY drives (spec/41_classifier.md R100), and what the tag and the sign together say of the value
(R102). -/

namespace Sys2Proof.Machine

/-! ### The code of a pair of operands, one lemma per code -/

theorem classCode_classOf_infinity (exp : BitVec 8) (mant : BitVec 23) :
    classCode (classOf exp mant) = 0b011#3 ↔ exp.toNat = 255 ∧ mant.toNat = 0 :=
  (classCode_eq_iff _ .infinity).trans <| by simp [classOf_eq_infinity, BitVec.toNat_eq]

theorem classCode_classOf_nan (exp : BitVec 8) (mant : BitVec 23) :
    classCode (classOf exp mant) = 0b100#3 ↔ exp.toNat = 255 ∧ mant.toNat ≠ 0 :=
  (classCode_eq_iff _ .nan).trans <| by simp [classOf_eq_nan, BitVec.toNat_eq]

theorem classCode_classOf_zero (exp : BitVec 8) (mant : BitVec 23) :
    classCode (classOf exp mant) = 0b001#3 ↔ exp.toNat = 0 ∧ mant.toNat = 0 :=
  (classCode_eq_iff _ .zero).trans <| by simp [classOf_eq_zero, BitVec.toNat_eq]

theorem classCode_classOf_denormalized (exp : BitVec 8) (mant : BitVec 23) :
    classCode (classOf exp mant) = 0b010#3 ↔ exp.toNat = 0 ∧ mant.toNat ≠ 0 :=
  (classCode_eq_iff _ .denormalized).trans <| by simp [classOf_eq_denormalized, BitVec.toNat_eq]

theorem classCode_classOf_normal (exp : BitVec 8) (mant : BitVec 23) :
    classCode (classOf exp mant) = 0b000#3 ↔ 1 ≤ exp.toNat ∧ exp.toNat ≤ 254 :=
  (classCode_eq_iff _ .normal).trans (classOf_eq_normal exp mant)

/-! ### The class port -/

theorem exec_classify (s : State) :
    exec .classify s = .next (s.mapOut fun o => { o with cls := classCode (classOf o.exp o.mant) }) := rfl

@[simp] theorem settledOutputs_cls (r : Except ParseError Word) :
    (settledOutputs r).cls =
      classCode (classOf (expOf (settledOutputs r).pat) (mantOf (settledOutputs r).pat)) := rfl

/-- Below the sign, a pattern is its exponent field followed by its mantissa field (10_state.md R28). -/
theorem toNat_mod_eq_exp_mant (p : Word) :
    p.toNat % 2 ^ 31 = (expOf p).toNat * 2 ^ 23 + (mantOf p).toNat := by
  have hexp := (expOf p).isLt
  have hmant := (mantOf p).isLt
  rw [← fields_sum p]
  omega

/-- Settles O37: CLASSIFY by the code of its operands, a transaction by the same codes read off the pattern below its
sign. -/
theorem classifyDrivesTheClass : Obligations.ClassifyDrivesTheClass := by
  refine ⟨fun s => ⟨_, exec_classify s, rfl, ?_⟩, fun s t h => ?_⟩
  · exact ⟨classCode_classOf_infinity _ _, classCode_classOf_nan _ _, classCode_classOf_zero _ _,
      classCode_classOf_denormalized _ _, classCode_classOf_normal _ _⟩
  · obtain ⟨r, -, rfl⟩ := step_next h
    have hexp := (expOf (settledOutputs r).pat).isLt
    have hmant := (mantOf (settledOutputs r).pat).isLt
    simp only [settledOutputs_cls, toNat_mod_eq_exp_mant]
    exact ⟨(classCode_classOf_infinity _ _).trans (by omega), (classCode_classOf_nan _ _).trans (by omega),
      (classCode_classOf_zero _ _).trans (by omega), (classCode_classOf_denormalized _ _).trans (by omega),
      (classCode_classOf_normal _ _).trans (by omega),
      fun hv => by rw [settledOutputs_pat_of_not_valid hv]; decide⟩

/-! ### The value behind the tag -/

theorem signOf_eq_one_iff (p : Word) : signOf p = 1#1 ↔ p.getLsbD 31 = true := by
  have hbit : ∀ b : BitVec 1, b = 1#1 ↔ b.getLsbD 0 = true := by decide
  rw [hbit, signOf_getLsbD_zero]

theorem f32_eq_of_cls {p : Word} {k : Classification} (h : classCode (classOf (expOf p) (mantOf p)) = classCode k) :
    f32 p = fieldsValue (signOf p) (expOf p) (mantOf p) k := by
  rw [f32, classCode_injective h]

theorem fieldsValue_eq_nan_iff (sign : BitVec 1) (exp : BitVec 8) (mant : BitVec 23) (k : Classification) :
    fieldsValue sign exp mant k = .nan ↔ k = .nan := by
  cases k <;> simp [fieldsValue]

/-- Settles O39: CLASSIFY drives a function of `exp` and `mant`; a transaction settles `cls` to the class on which the
value of `pat` branches. -/
theorem tagAndSignDescribeTheValue : Obligations.TagAndSignDescribeTheValue := by
  refine ⟨fun s₁ s₂ t₁ t₂ hexp hmant h₁ h₂ => ?_, fun s t h => ?_⟩
  · rw [exec_classify] at h₁ h₂
    cases h₁
    cases h₂
    simp only [mapOut_out, hexp, hmant]
  · obtain ⟨r, -, rfl⟩ := step_next h
    exact ⟨signOf_eq_one_iff _, f32_eq_of_cls (k := .zero), f32_eq_of_cls (k := .infinity),
      (classCode_eq_iff _ .nan).trans (fieldsValue_eq_nan_iff _ _ _ _).symm⟩

end Sys2Proof.Machine
end

section
/-! PROOFS. How a Denormalized pattern is reconstructed, and that no shortcut through the helper ports `mval` and
`unb_exp` gives its value (spec/42_reconstructor.md R113). -/

namespace Sys2Proof.Machine

/-! ### The settled ports of the reconstructor -/

theorem settledOutputs_mval (r : Except ParseError Word) :
    (settledOutputs r).mval = mantissaWord (settledOutputs r).mant := rfl

theorem settledOutputs_unbExp (r : Except ParseError Word) :
    (settledOutputs r).unbExp = unbiasedExponent (settledOutputs r).exp := rfl

/-- The settled drive of the reconstructor is R112's, on the fields and the class on the ports. -/
theorem settledOutputs_drive (r : Except ParseError Word) :
    ((settledOutputs r).recon, (settledOutputs r).reconValid) =
      reconstructDrive (settledOutputs r).patValid (settledOutputs r).sign (settledOutputs r).exp
        (settledOutputs r).mant (settledOutputs r).cls := rfl

/-- The settled class code is Denormalized only with an exponent field of 0 and a mantissa field off 0. -/
theorem settledOutputs_fields_of_denormalized {r : Except ParseError Word}
    (hc : (settledOutputs r).cls = 0b010#3) : (settledOutputs r).exp = 0#8 ∧ (settledOutputs r).mant ≠ 0#23 :=
  (classOf_eq_denormalized _ _).1 (classCode_injective (b := .denormalized) hc)

/-- A valid Denormalized pattern is reconstructed from its sign and its mantissa, with an exponent field of 0. -/
theorem settledOutputs_recon_of_denormalized {r : Except ParseError Word} (hv : (settledOutputs r).patValid = true)
    (hc : (settledOutputs r).cls = 0b010#3) :
    (settledOutputs r).recon = pack (settledOutputs r).sign 0#8 (settledOutputs r).mant ∧
      (settledOutputs r).reconValid = true := by
  have hdrive := settledOutputs_drive r
  rw [hv, hc, reconstructDrive_denormalized] at hdrive
  exact Prod.mk.inj hdrive

/-! ### The values on `mval`, `unb_exp` and a Denormalized `recon` -/

theorem f32_pack (sign : BitVec 1) (exp : BitVec 8) (mant : BitVec 23) :
    f32 (pack sign exp mant) = fieldsValue sign exp mant (classOf exp mant) := by
  simp only [f32, signOf_pack, expOf_pack, mantOf_pack]

theorem f32_mantissaWord (mant : BitVec 23) :
    f32 (mantissaWord mant) = .number (1 + (mant.toNat : ℚ) / 2 ^ 23) := by
  have hclass : classOf 127#8 mant = .normal := (classOf_eq_normal _ _).2 (by decide)
  rw [mantissaWord, f32_pack, hclass]
  simp [fieldsValue, normalValue, signFactor, BIAS]

theorem f32_pack_denormalized (sign : BitVec 1) {mant : BitVec 23} (h : mant ≠ 0#23) :
    f32 (pack sign 0#8 mant) =
      .number ((-1) ^ sign.toNat * (2 : ℚ) ^ (-126 : ℤ) * ((mant.toNat : ℚ) / 2 ^ 23)) := by
  rw [f32_pack, (classOf_eq_denormalized _ _).2 ⟨rfl, h⟩]
  rfl

theorem unbiasedExponent_toInt (exp : BitVec 8) : (unbiasedExponent exp).toInt = (exp.toNat : ℤ) - 127 := by
  have h := exp.isLt
  simp only [unbiasedExponent, BitVec.toInt_eq_toNat_cond, BitVec.toNat_sub, BitVec.toNat_setWidth,
    BitVec.toNat_ofNat]
  split <;> omega

/-! ### The forbidden mixtures -/

/-- With leading bit 0 and exponent -126, a fraction strictly between 0 and 1 has a value that is none of the three
which take both the leading 1 and the exponent -127, the leading 1 alone, or -127 alone: after cancelling
the sign and 2^(-127), `2 * f` is none of `1 + f`, `2 * (1 + f)` and `f`. -/
theorem denormalized_value_ne_shortcuts {σ f : ℚ} (hσ : σ ≠ 0) (hpos : 0 < f) (hlt : f < 1) :
    σ * 2 ^ (-126 : ℤ) * f ≠ σ * 2 ^ (-127 : ℤ) * (1 + f) ∧
    σ * 2 ^ (-126 : ℤ) * f ≠ σ * 2 ^ (-126 : ℤ) * (1 + f) ∧
    σ * 2 ^ (-126 : ℤ) * f ≠ σ * 2 ^ (-127 : ℤ) * f := by
  have hscale : σ * 2 ^ (-127 : ℤ) ≠ 0 := mul_ne_zero hσ (zpow_ne_zero _ two_ne_zero)
  have hdouble (x : ℚ) : σ * 2 ^ (-126 : ℤ) * x = σ * 2 ^ (-127 : ℤ) * (2 * x) := by
    rw [show (-126 : ℤ) = -127 + 1 from rfl, zpow_add_one₀ two_ne_zero]
    ring
  simp only [hdouble, ne_eq, mul_right_inj' hscale]
  exact ⟨by linarith, by linarith, by linarith⟩

theorem mant_fraction_pos {mant : BitVec 23} (h : mant ≠ 0#23) : 0 < (mant.toNat : ℚ) / 2 ^ 23 := by
  have hpos : 0 < mant.toNat := Nat.pos_of_ne_zero fun h0 => h (BitVec.eq_of_toNat_eq h0)
  positivity

theorem mant_fraction_lt_one (mant : BitVec 23) : (mant.toNat : ℚ) / 2 ^ 23 < 1 := by
  rw [div_lt_one (by positivity)]
  exact_mod_cast mant.isLt

/-- Settles O44: the class fixes the exponent field at 0 and the mantissa off 0, so `recon` has the Denormalized
value, while `mval` and `unb_exp` hold the leading 1 and -127 of the three mixtures. -/
theorem denormalizedNeverUsesTheShortcut : Obligations.DenormalizedNeverUsesTheShortcut := by
  intro s t h hv hc
  obtain ⟨r, -, rfl⟩ := step_next h
  obtain ⟨hexp, hmant⟩ := settledOutputs_fields_of_denormalized hc
  obtain ⟨hrecon, hvalid⟩ := settledOutputs_recon_of_denormalized hv hc
  have hvalue := f32_pack_denormalized (settledOutputs r).sign hmant
  have hunb : (settledOutputs r).unbExp.toInt = -127 := by
    rw [settledOutputs_unbExp, hexp, unbiasedExponent_toInt]
    rfl
  have hsign : (-1 : ℚ) ^ (settledOutputs r).sign.toNat ≠ 0 := pow_ne_zero _ (by norm_num)
  rw [← hrecon] at hvalue
  refine ⟨hvalid, hvalue, fun m hm => ?_⟩
  rw [settledOutputs_mval, f32_mantissaWord] at hm
  cases hm
  rw [hvalue, hunb]
  simp only [ne_eq, Datum.number.injEq]
  exact denormalized_value_ne_shortcuts hsign (mant_fraction_pos hmant) (mant_fraction_lt_one _)

end Sys2Proof.Machine
end

section
/-! PROOFS. Which operations can raise FormatError (spec/60_exceptions.md R131). -/

namespace Sys2Proof.Machine

/-- Every operation is one of the three that `in_sel` selects or one of the output stage (10_state.md R25). -/
theorem instr_cases (i : Instr) :
    (∃ w, i = .encode w) ∨ (∃ text, i = .decodeBin text) ∨ (∃ text, i = .decodeHex text) ∨ i ∈ outputStage := by
  cases i <;> simp [outputStage]

theorem encode_notMem_outputStage (w : Word) : .encode w ∉ outputStage := by simp [outputStage]

theorem exec_encode (w : Word) (s : State) : exec (.encode w) s = .next (drivePattern w s) := rfl

/-- An output-stage operation completes in every state and leaves `err` and `err_kind` as the input stage drove them
(10_state.md R30). -/
theorem exec_outputStage_keeps_error {i : Instr} (h : i ∈ outputStage) (s : State) :
    ∃ t, exec i s = .next t ∧ t.out.err = s.out.err ∧ t.out.errKind = s.out.errKind := by
  simp only [outputStage, List.mem_cons, List.not_mem_nil, or_false] at h
  rcases h with rfl | rfl | rfl | rfl | rfl | rfl <;> exact ⟨_, rfl, rfl, rfl⟩

/-- A transaction that selects ENCODE settles the outputs of an accepted pattern, in every state. -/
theorem step_of_encode_selected {s : State} (h : (nextVector s).inSel = 0b00#2) :
    step s = .next
      { cfg := s.cfg, inp := nextVector s, out := settledOutputs (.ok (nextVector s).inWord),
        pending := s.pending.tail } := by
  have hd : decode (nextVector s) = .ok (.encode (nextVector s).inWord) := if_pos h
  rw [step_eq_of_decode_ok hd]
  rfl

/-- Settles O32: ENCODE clears `err`, the output stage keeps it, and an ENCODE transaction settles an accepted
pattern. -/
theorem onlyTextOperationsRaise : Obligations.OnlyTextOperationsRaise := by
  refine ⟨fun i s hbin hhex => ?_, fun s hsel => ⟨_, step_of_encode_selected hsel, rfl⟩⟩
  obtain ⟨w, rfl⟩ | ⟨text, rfl⟩ | ⟨text, rfl⟩ | hout := instr_cases i
  · refine ⟨_, exec_encode w s, fun herr => ?_⟩
    cases herr
  · exact absurd rfl (hbin text)
  · exact absurd rfl (hhex text)
  · obtain ⟨t, ht, herr, hkind⟩ := exec_outputStage_keeps_error hout s
    refine ⟨t, ht, fun h => ⟨herr ▸ h, hkind, ?_⟩⟩
    rintro w rfl
    exact encode_notMem_outputStage w hout

end Sys2Proof.Machine
end

section
/-! PROOFS. A step is the block's function `eval` (spec/10_state.md R31, R32): when it is refused, what it settles, and
what the settled outputs do not depend on. -/

namespace Sys2Proof.Machine

/-! ### What the input stage answers, by selector -/

theorem inputStage_of_bin {c : Config} {v : InputVector} (hsel : v.inSel = 0b01#2) (hle : v.txtLen.toNat ≤ c.txtMax) :
    inputStage c v = some (parseBin v.text) := by
  simp [inputStage, hsel, Nat.not_lt.2 hle]

theorem inputStage_of_hex {c : Config} {v : InputVector} (hsel : v.inSel = 0b10#2) (hle : v.txtLen.toNat ≤ c.txtMax) :
    inputStage c v = some (parseHex v.text) := by
  simp [inputStage, hsel, Nat.not_lt.2 hle]

/-- Everything the input stage can answer (10_state.md R31, R32). -/
theorem inputStage_cases (c : Config) (v : InputVector) :
    (v.inSel = 0b00#2 ∧ inputStage c v = some (.ok v.inWord)) ∨
    (v.inSel = 0b01#2 ∧ v.txtLen.toNat ≤ c.txtMax ∧ inputStage c v = some (parseBin v.text)) ∨
    (v.inSel = 0b10#2 ∧ v.txtLen.toNat ≤ c.txtMax ∧ inputStage c v = some (parseHex v.text)) ∨
    ((v.inSel = 0b01#2 ∨ v.inSel = 0b10#2) ∧ c.txtMax < v.txtLen.toNat ∧ inputStage c v = none) ∨
    (v.inSel = 0b11#2 ∧ inputStage c v = none) := by
  have hfits := Nat.lt_or_ge c.txtMax v.txtLen.toNat
  obtain ⟨hsel, -⟩ | ⟨hsel, -⟩ | ⟨hsel, -⟩ | ⟨hsel, -⟩ := decode_cases v
  · exact .inl ⟨hsel, by simp [inputStage, hsel]⟩
  · obtain hlong | hle := hfits
    · exact .inr (.inr (.inr (.inl ⟨.inl hsel, hlong, by simp [inputStage, hsel, hlong]⟩)))
    · exact .inr (.inl ⟨hsel, hle, inputStage_of_bin hsel hle⟩)
  · obtain hlong | hle := hfits
    · exact .inr (.inr (.inr (.inl ⟨.inr hsel, hlong, by simp [inputStage, hsel, hlong]⟩)))
    · exact .inr (.inr (.inl ⟨hsel, hle, inputStage_of_hex hsel hle⟩))
  · exact .inr (.inr (.inr (.inr ⟨hsel, by simp [inputStage, hsel]⟩)))

theorem eval_of_inputStage {c : Config} {v : InputVector} {r : Except ParseError Word}
    (h : inputStage c v = some r) : eval c v = some (settledOutputs r) := by
  rw [eval, h, Option.map_some]

theorem eval_eq_some_iff {c : Config} {v : InputVector} {o : OutputVector} :
    eval c v = some o ↔ ∃ r, inputStage c v = some r ∧ settledOutputs r = o := Option.map_eq_some_iff

theorem eval_eq_none_iff {c : Config} {v : InputVector} : eval c v = none ↔ inputStage c v = none :=
  Option.map_eq_none_iff

/-! ### What a step answers -/

/-- The state after a transaction whose input stage found `r`. -/
def settle (s : State) (r : Except ParseError Word) : State :=
  { cfg := s.cfg, inp := nextVector s, out := settledOutputs r, pending := s.pending.tail }

theorem decode_eq_decodeBin {v : InputVector} (h : v.inSel = 0b01#2) : decode v = .ok (.decodeBin v.text) := by
  simp [decode, h]

theorem decode_eq_decodeHex {v : InputVector} (h : v.inSel = 0b10#2) : decode v = .ok (.decodeHex v.text) := by
  simp [decode, h]

/-- A transaction of a text operation ends as its operation does: refused for its length, or settled to what its
parser answers. -/
theorem step_of_runText {s : State} {i : Instr} {parse : List CharCode → Except ParseError Word}
    {text : List CharCode} (hd : decode (nextVector s) = .ok i)
    (hx : exec i (present s) = runText parse text (present s)) :
    (s.cfg.txtMax < text.length → step s = .refused .textTooLong) ∧
    (text.length ≤ s.cfg.txtMax → step s = .next (settle s (parse text))) := by
  rw [step_eq_of_decode_ok hd, hx]
  refine ⟨fun hlong => ?_, fun hle => ?_⟩
  · rw [runText, present_cfg, if_pos hlong, andThen_refused]
  · rw [runText_of_le (s := present s) hle, andThen_next, runAll_outputStage, State.mapOut, outputStageResult_finish]
    simp [settle]

/-- A step settles what the input stage found. -/
theorem step_of_inputStage_some {s : State} {r : Except ParseError Word}
    (h : inputStage s.cfg (nextVector s) = some r) : step s = .next (settle s r) := by
  obtain ⟨hsel, hr⟩ | ⟨hsel, hle, hr⟩ | ⟨hsel, hle, hr⟩ | ⟨-, -, hr⟩ | ⟨-, hr⟩ :=
    inputStage_cases s.cfg (nextVector s) <;> rw [hr] at h <;> cases h
  · exact step_of_encode_selected hsel
  · exact (step_of_runText (decode_eq_decodeBin hsel) rfl).2 (by rwa [text_length])
  · exact (step_of_runText (decode_eq_decodeHex hsel) rfl).2 (by rwa [text_length])

theorem step_of_long_text {s : State} (hsel : (nextVector s).inSel = 0b01#2 ∨ (nextVector s).inSel = 0b10#2)
    (hlong : s.cfg.txtMax < (nextVector s).txtLen.toNat) : step s = .refused .textTooLong := by
  obtain hsel | hsel := hsel
  · exact (step_of_runText (decode_eq_decodeBin hsel) rfl).1 (by rwa [text_length])
  · exact (step_of_runText (decode_eq_decodeHex hsel) rfl).1 (by rwa [text_length])

theorem step_of_reserved_selector {s : State} (hsel : (nextVector s).inSel = 0b11#2) :
    step s = .refused .reservedSelector :=
  step_eq_of_decode_error (e := .reservedSelector) (by simp [decode, hsel])

/-- Everything a step can do: settle what the input stage found, or be refused where it found nothing. -/
theorem step_cases (s : State) :
    (∃ r, inputStage s.cfg (nextVector s) = some r ∧ step s = .next (settle s r)) ∨
    (inputStage s.cfg (nextVector s) = none ∧ ∃ f, step s = .refused f) := by
  obtain ⟨-, hr⟩ | ⟨-, -, hr⟩ | ⟨-, -, hr⟩ | ⟨hsel, hlong, hr⟩ | ⟨hsel, hr⟩ := inputStage_cases s.cfg (nextVector s)
  · exact .inl ⟨_, hr, step_of_inputStage_some hr⟩
  · exact .inl ⟨_, hr, step_of_inputStage_some hr⟩
  · exact .inl ⟨_, hr, step_of_inputStage_some hr⟩
  · exact .inr ⟨hr, _, step_of_long_text hsel hlong⟩
  · exact .inr ⟨hr, _, step_of_reserved_selector hsel⟩

/-- Settles O8: a step settles what the input stage found, and is refused where it found nothing. -/
theorem stepRefinesEval : Obligations.StepRefinesEval := by
  intro s
  constructor
  · rw [eval_eq_none_iff]
    obtain ⟨r, hr, hs⟩ | ⟨hr, hs⟩ := step_cases s
    · simp [hr, hs]
    · exact iff_of_true hr hs
  · intro o ho
    obtain ⟨r, hr, rfl⟩ := eval_eq_some_iff.1 ho
    exact step_of_inputStage_some hr

/-- Settles O9: the refusals are those of the input stage, by selector and length. -/
theorem stepRefusesExactlyTheTwoVectors : Obligations.StepRefusesExactlyTheTwoVectors := by
  intro s f
  obtain ⟨hsel, hr⟩ | ⟨hsel, hle, hr⟩ | ⟨hsel, hle, hr⟩ | ⟨hsel, hlong, hr⟩ | ⟨hsel, hr⟩ :=
    inputStage_cases s.cfg (nextVector s)
  · simp [step_of_inputStage_some hr, hsel]
  · simp [step_of_inputStage_some hr, hsel, Nat.not_lt.2 hle]
  · simp [step_of_inputStage_some hr, hsel, Nat.not_lt.2 hle]
  · have hne : (nextVector s).inSel ≠ 0b11#2 := by rintro h; simp [h] at hsel
    simp [step_of_long_text hsel hlong, hsel, hlong, hne, eq_comm (a := f)]
  · simp [step_of_reserved_selector hsel, hsel, eq_comm (a := f)]

/-- Settles O10: a legal vector is none of the two a step is refused for. -/
theorem legalVectorCompletes : Obligations.LegalVectorCompletes := by
  intro s hsafe
  obtain ⟨hreserved, hfits⟩ : (nextVector s).inSel ≠ 3#2 ∧
      ((nextVector s).inSel = 0#2 ∨ (nextVector s).txtLen.toNat ≤ s.cfg.txtMax) := by
    simpa [SafeNext, InputVector.legal] using hsafe
  obtain ⟨-, hr⟩ | ⟨-, -, hr⟩ | ⟨-, -, hr⟩ | ⟨hsel, hlong, -⟩ | ⟨hsel, -⟩ := inputStage_cases s.cfg (nextVector s)
  · exact ⟨_, step_of_inputStage_some hr⟩
  · exact ⟨_, step_of_inputStage_some hr⟩
  · exact ⟨_, step_of_inputStage_some hr⟩
  · obtain h0 | hle := hfits
    · simp [h0] at hsel
    · omega
  · exact absurd hsel hreserved

/-! ### What the sampled outputs depend on -/

theorem sampled_step (s : State) : sampled (step s) = eval s.cfg (nextVector s) := by
  obtain ⟨r, hr, hs⟩ | ⟨hr, f, hs⟩ := step_cases s
  · rw [hs, eval_of_inputStage hr]
    rfl
  · rw [hs, eval_eq_none_iff.2 hr]
    rfl

/-- Settles O14: what a host samples is `eval` of the configuration and the next vector. -/
theorem outputsForgetThePast : Obligations.OutputsForgetThePast := by
  intro s₁ s₂ hcfg hnext
  rw [sampled_step, sampled_step, hcfg, hnext]

theorem readSlots_congr (n : Nat) {xs ys : List CharCode} (h : ∀ k, k < n → xs.getD k 0 = ys.getD k 0) :
    readSlots n xs = readSlots n ys := by
  refine List.ext_getElem (by simp) fun k hk hk' => ?_
  have hkn : k < n := by simpa using hk
  rw [← List.getD_eq_getElem _ 0 hk, ← List.getD_eq_getElem _ 0 hk', readSlots_getD _ _ _ hkn,
    readSlots_getD _ _ _ hkn, h k hkn]

/-- The input stage reads the ports of R52 and no others (30_encoding.md R53). -/
theorem inputStage_congr (c : Config) {v₁ v₂ : InputVector} (hsel : v₁.inSel = v₂.inSel)
    (hword : v₁.inSel = 0b00#2 → v₁.inWord = v₂.inWord)
    (htext : v₁.inSel = 0b01#2 ∨ v₁.inSel = 0b10#2 → v₁.txtLen = v₂.txtLen ∧ v₁.text = v₂.text) :
    inputStage c v₁ = inputStage c v₂ := by
  obtain ⟨h, -⟩ | ⟨h, -⟩ | ⟨h, -⟩ | ⟨h, -⟩ := decode_cases v₁
  · simp [inputStage, ← hsel, h, hword h]
  · simp [inputStage, ← hsel, h, htext (.inl h)]
  · simp [inputStage, ← hsel, h, htext (.inr h)]
  · simp [inputStage, ← hsel, h]

/-- Settles O15: a transaction samples `eval`, whose input stage reads the ports of its selector alone. -/
theorem ignoredPortsHaveNoEffect : Obligations.IgnoredPortsHaveNoEffect := by
  intro s v₁ v₂ hsel hword htext
  have hstage : inputStage s.cfg v₁ = inputStage s.cfg v₂ :=
    inputStage_congr s.cfg hsel hword fun h => by
      obtain ⟨hlen, hslots⟩ := htext h
      exact ⟨hlen, by rw [InputVector.text, InputVector.text, ← hlen, readSlots_congr _ hslots]⟩
  simp only [sampled_step, nextVector_presentNext, presentNext_cfg, eval, hstage]

/-- Settles O16: with nothing pending the settled state holds the same next vector and settles to itself. -/
theorem sameVectorAgainChangesNothing : Obligations.SameVectorAgainChangesNothing := by
  intro s t hp h
  obtain ⟨r, hr, rfl⟩ := step_next h
  rw [hp]
  exact step_of_inputStage_some (s := ⟨s.cfg, nextVector s, settledOutputs r, []⟩) hr

/-- Settles O19: an ENCODE transaction settles the outputs of its accepted word. -/
theorem encodeThenToFloatIsIdentity : Obligations.EncodeThenToFloatIsIdentity :=
  fun _ hsel => ⟨_, step_of_encode_selected hsel, rfl, rfl, rfl, rfl⟩

/-! ### The operations of a step -/

/-- Settles O2: the step runs the operation read, then the output stage's list one by one. -/
theorem stepRunsTheDecodedOperation : Obligations.StepRunsTheDecodedOperation :=
  fun _ => ⟨fun _ hd => step_eq_of_decode_ok hd, fun _ hd => step_eq_of_decode_error hd⟩

/-- Settles O3: selector by selector, the rows that match are those of the operations read from the ports. -/
theorem tableDecoderAgreesWithPortDecoder : Obligations.TableDecoderAgreesWithPortDecoder := by
  intro v
  obtain ⟨hsel, hd⟩ | ⟨hsel, hd⟩ | ⟨hsel, hd⟩ | ⟨hsel, hd⟩ := decode_cases v <;>
    rw [decodeTransaction, hd, hsel] <;> rfl

/-- Settles O17: a text operation ends as `finishInputStage`, every other operation is an update of its own ports. -/
theorem eachPortHasOneWriter : Obligations.EachPortHasOneWriter := by
  intro i s t h
  cases i with
  | decodeBin text =>
    obtain ⟨-, rfl⟩ := runText_next h
    cases parseBin text <;> simp
  | decodeHex text =>
    obtain ⟨-, rfl⟩ := runText_next h
    cases parseHex text <;> simp
  | _ => cases h; simp

/-- Settles O18: ENCODE drives its word and clears the error ports. -/
theorem encodeDrivesTheWord : Obligations.EncodeDrivesTheWord := exec_encode

/-- Settles O24: both text operations check the length first. -/
theorem textLongerThanThePortIsRefused : Obligations.TextLongerThanThePortIsRefused :=
  fun _ _ hlong => ⟨if_pos hlong, if_pos hlong⟩

end Sys2Proof.Machine
end

section
/-! PROOFS. How the text operations end: the errors of DECODE_BIN and DECODE_HEX in the order of
spec/60_exceptions.md R133, the value of a hexadecimal text (40_decomposer.md R83), and the complete list of causes
(60_exceptions.md R132). -/

namespace Sys2Proof.Machine

/-! ### Digit strings -/

theorem exec_decodeHex_of_le {text : List CharCode} {s : State} (h : text.length ≤ s.cfg.txtMax) :
    exec (.decodeHex text) s = .next (finishInputStage (parseHex text) s) := runText_of_le h

theorem digitsValue_cons (b : Nat) (digit : CharCode → Option Nat) (c : CharCode) (cs : List CharCode) :
    digitsValue b digit (c :: cs) = (digit c).getD 0 * b ^ cs.length + digitsValue b digit cs := by
  rw [← List.singleton_append, digitsValue_append]
  simp [digitsValue]

/-- The sum of the digits times the powers of the base, the first digit most significant. -/
theorem digitsValue_eq_sum (b : Nat) (digit : CharCode → Option Nat) (cs : List CharCode) :
    digitsValue b digit cs =
      ((List.range cs.length).map fun j => (digit (cs.getD j 0)).getD 0 * b ^ (cs.length - 1 - j)).sum := by
  induction cs with
  | nil => rfl
  | cons c cs ih =>
    have hpow : ∀ j, cs.length - 1 - j = cs.length - (j + 1) := by omega
    rw [digitsValue_cons, ih, List.length_cons, List.range_succ_eq_map]
    simp [Function.comp_def, hpow]

/-- A property of the characters from `start` on, by membership and by index. -/
theorem forall_mem_drop_iff (text : List CharCode) (start : Nat) (P : CharCode → Prop) :
    (∀ c ∈ text.drop start, P c) ↔ ∀ j, j < text.length - start → P (text.getD (start + j) 0) := by
  simp only [List.forall_mem_iff_getElem, List.length_drop]
  refine forall₂_congr fun j hj => ?_
  rw [List.getElem_drop, List.getD_eq_getElem _ _ (by omega)]

theorem getD_drop (text : List CharCode) (start j : Nat) : (text.drop start).getD j 0 = text.getD (start + j) 0 := by
  simp [List.getD_eq_getElem?_getD]

/-! ### DECODE_BIN's errors -/

theorem parseBin_of_length_ne {text : List CharCode} (h : text.length ≠ 32) :
    parseBin text = .error ⟨.wrongLength, none⟩ := if_pos h

theorem parseBin_of_offending {text : List CharCode} {k : Nat} (hl : text.length = 32)
    (hf : firstOffending binDigit 0 text = some k) : parseBin text = .error ⟨.invalidDigit, some k⟩ := by
  simp [parseBin, hl, hf]

/-- Settles O21: the parser checks the length, then looks for the first character with no digit value. -/
theorem binaryTextErrorsAndTheirOrder : Obligations.BinaryTextErrorsAndTheirOrder := by
  intro s text hfits
  rw [exec_decodeBin_of_le hfits]
  refine ⟨fun hl => ?_, fun k hl hk ⟨hne0, hne1⟩ hbefore => ?_⟩
  · rw [parseBin_of_length_ne hl]
    rfl
  · have hf : firstOffending binDigit 0 text = some k := by
      refine (firstOffending_eq_some _ _ _ _).2 ⟨k, by omega, by omega, ?_, fun i hi => ?_⟩
      · rw [binDigit, if_neg hne0, if_neg hne1]
      · exact (binDigit_isSome _).2 (hbefore i hi)
    rw [parseBin_of_offending hl hf]
    rfl

/-! ### DECODE_HEX's errors and its value -/

theorem parseHex_of_offending {text : List CharCode} {k : Nat}
    (hf : firstOffending hexDigit (hexStart text) (text.drop (hexStart text)) = some k) :
    parseHex text = .error ⟨.invalidDigit, some k⟩ := by
  simp [parseHex, hf]

theorem parseHex_of_no_digit {text : List CharCode} (h : text.drop (hexStart text) = []) :
    parseHex text = .error ⟨.wrongLength, none⟩ := by
  simp [parseHex, h, firstOffending]

section

variable {text : List CharCode} (hall : ∀ c ∈ text.drop (hexStart text), (hexDigit c).isSome = true)

include hall

theorem parseHex_of_overflow (hv : PATTERN_MAX < digitsValue 16 hexDigit (text.drop (hexStart text))) :
    parseHex text = .error ⟨.overflow, none⟩ := by
  have hne : text.drop (hexStart text) ≠ [] := by
    rintro h
    simp [h] at hv
  rw [← List.length_pos_iff, Nat.pos_iff_ne_zero] at hne
  simp only [parseHex, (firstOffending_eq_none _ _ _).2 hall, if_neg hne, if_pos hv]

theorem parseHex_of_value (hne : text.drop (hexStart text) ≠ [])
    (hv : digitsValue 16 hexDigit (text.drop (hexStart text)) ≤ PATTERN_MAX) :
    parseHex text = .ok (BitVec.ofNat 32 (digitsValue 16 hexDigit (text.drop (hexStart text)))) := by
  rw [← List.length_pos_iff, Nat.pos_iff_ne_zero] at hne
  simp only [parseHex, (firstOffending_eq_none _ _ _).2 hall, if_neg hne, if_neg (Nat.not_lt.2 hv)]

end

/-- The claims' sum over the digits after the optional `0x` is the value the parser computes. -/
theorem hexSum_eq_digitsValue (text : List CharCode) (start : Nat) :
    ((List.range (text.length - start)).map fun j =>
        (hexDigit (text.getD (start + j) 0)).getD 0 * 16 ^ (text.length - start - 1 - j)).sum =
      digitsValue 16 hexDigit (text.drop start) := by
  rw [digitsValue_eq_sum, List.length_drop]
  simp only [getD_drop]

/-- Settles O22: the parser accepts the digits with the value of their sum. -/
theorem hexTextDrivesItsValue : Obligations.HexTextDrivesItsValue := by
  rintro s text _ _ hfits rfl hpos hdigits rfl hmax
  rw [hexSum_eq_digitsValue] at hmax ⊢
  have hall := (forall_mem_drop_iff text (hexStart text) fun c => (hexDigit c).isSome = true).2 hdigits
  have hne : text.drop (hexStart text) ≠ [] := by
    rw [← List.length_pos_iff, List.length_drop]
    exact hpos
  rw [exec_decodeHex_of_le hfits, parseHex_of_value hall hne hmax]
  rfl

/-- Settles O23: the parser looks for an invalid character, then for any digit at all, then at the value. -/
theorem hexTextErrorsAndTheirOrder : Obligations.HexTextErrorsAndTheirOrder := by
  intro s text hfits
  rw [exec_decodeHex_of_le hfits]
  refine ⟨fun k hstart hk hbad hbefore => ?_, fun hl => ?_, ?_⟩
  · have hf : firstOffending hexDigit (hexStart text) (text.drop (hexStart text)) = some k := by
      refine (firstOffending_eq_some _ _ _ _).2 ⟨k - hexStart text, by omega, ?_, ?_, fun i hi => ?_⟩
      · rw [List.length_drop]
        omega
      · rw [getD_drop, Nat.add_sub_cancel' hstart, hbad]
      · rw [getD_drop]
        exact hbefore _ (by omega) (by omega)
    rw [parseHex_of_offending hf]
    rfl
  · rw [parseHex_of_no_digit (List.drop_eq_nil_of_le hl.le)]
    rfl
  · rintro _ rfl hdigits hmax
    rw [hexSum_eq_digitsValue] at hmax
    have hall := (forall_mem_drop_iff text (hexStart text) fun c => (hexDigit c).isSome = true).2 hdigits
    rw [parseHex_of_overflow hall hmax]
    rfl

/-! ### The complete list of causes -/

/-- The input stage found a FormatError of this kind. -/
def Raises (r : Except ParseError Word) (kind : FormatErrorKind) : Prop := ∃ pos, r = .error ⟨kind, pos⟩

@[simp] theorem raises_ok (p : Word) (kind : FormatErrorKind) : ¬ Raises (.ok p) kind := by
  rintro ⟨pos, h⟩
  cases h

@[simp] theorem raises_error (e : ParseError) (kind : FormatErrorKind) :
    Raises (.error e) kind ↔ e.kind = kind := by
  obtain ⟨k, pos⟩ := e
  simp [Raises]

theorem errorCode_eq_iff (a b : FormatErrorKind) : errorCode a = errorCode b ↔ a = b :=
  ⟨fun h => by simpa using congrArg errorOfCode h, congrArg errorCode⟩

/-- The error ports report a kind exactly where the input stage raised it (60_exceptions.md R130). -/
theorem settledOutputs_reports_iff (r : Except ParseError Word) (kind : FormatErrorKind) :
    (settledOutputs r).err = true ∧ (settledOutputs r).errKind = errorCode kind ↔ Raises r kind := by
  cases r with
  | ok p => exact iff_of_false (fun h => by cases h.1) (raises_ok p kind)
  | error e =>
    rw [raises_error, ← errorCode_eq_iff]
    exact and_iff_right rfl

theorem exists_invalid_of_firstOffending {digit : CharCode → Option Nat} {k m : Nat} {cs : List CharCode}
    (h : firstOffending digit k cs = some m) : ∃ c ∈ cs, digit c = none := by
  by_contra hno
  have hall : ∀ c ∈ cs, (digit c).isSome = true := fun c hc =>
    Option.isSome_iff_ne_none.2 fun hn => hno ⟨c, hc, hn⟩
  rw [(firstOffending_eq_none _ _ _).2 hall] at h
  cases h

theorem not_exists_invalid {digit : CharCode → Option Nat} {cs : List CharCode}
    (h : ∀ c ∈ cs, (digit c).isSome = true) : ¬ ∃ c ∈ cs, digit c = none := by
  rintro ⟨c, hc, hn⟩
  simpa [hn] using h c hc

/-- What DECODE_BIN raises, and when (60_exceptions.md R132). -/
theorem parseBin_raises (text : List CharCode) :
    (Raises (parseBin text) .wrongLength ↔ text.length ≠ 32) ∧
    (Raises (parseBin text) .invalidDigit ↔ text.length = 32 ∧ ∃ c ∈ text, binDigit c = none) ∧
    ¬ Raises (parseBin text) .overflow := by
  obtain ⟨hl, hp⟩ | ⟨hl, k, -, hf, hp⟩ | ⟨hl, hall, hp⟩ := parseBin_cases text
  · simp [hp, hl]
  · have hbad := exists_invalid_of_firstOffending hf
    simp [hp, hl, hbad]
  · have hnone := not_exists_invalid hall
    simp [hp, hl, hnone]

/-- What DECODE_HEX raises, and when (60_exceptions.md R132). -/
theorem parseHex_raises (text : List CharCode) :
    (Raises (parseHex text) .wrongLength ↔ text.drop (hexStart text) = []) ∧
    (Raises (parseHex text) .invalidDigit ↔ ∃ c ∈ text.drop (hexStart text), hexDigit c = none) ∧
    (Raises (parseHex text) .overflow ↔
      (∀ c ∈ text.drop (hexStart text), (hexDigit c).isSome = true) ∧
        PATTERN_MAX < digitsValue 16 hexDigit (text.drop (hexStart text))) := by
  obtain ⟨k, hk, hlt, hf, hp⟩ | ⟨hl, hp⟩ | ⟨hlt, hall, hv, hp⟩ | ⟨hlt, hall, hv, hp⟩ := parseHex_cases text
  · have hbad := exists_invalid_of_firstOffending hf
    have hnot := fun hall => not_exists_invalid hall hbad
    have hne : ¬ text.length ≤ hexStart text := by omega
    simp only [hp, raises_error]
    exact ⟨by simpa using hne, iff_of_true trivial hbad, iff_of_false (by simp) fun h => hnot h.1⟩
  · have hnil : text.drop (hexStart text) = [] := List.drop_eq_nil_of_le hl.le
    simp [hp, hnil]
  · have hne : ¬ text.length ≤ hexStart text := by omega
    simp only [hp, raises_error]
    exact ⟨by simpa using hne, iff_of_false (by simp) (not_exists_invalid hall), iff_of_true trivial ⟨hall, hv⟩⟩
  · have hne : ¬ text.length ≤ hexStart text := by omega
    simp only [hp, raises_ok]
    exact ⟨by simpa using hne, iff_of_false id (not_exists_invalid hall), iff_of_false id fun h => by omega⟩

theorem binDigit_eq_none_iff (c : CharCode) : binDigit c = none ↔ c ≠ 0x30#8 ∧ c ≠ 0x31#8 := by
  rw [← Option.not_isSome_iff_eq_none, binDigit_isSome, not_or]

theorem errorCode_ne_three (kind : FormatErrorKind) : errorCode kind ≠ 0b11#2 := by cases kind <;> decide

/-- What the input stage raises, and when (60_exceptions.md R132). -/
theorem inputStage_raises {c : Config} {v : InputVector} {r : Except ParseError Word}
    (h : inputStage c v = some r) :
    (Raises r .wrongLength ↔
      (v.inSel = 0b01#2 ∧ v.text.length ≠ 32) ∨ (v.inSel = 0b10#2 ∧ v.text.drop (hexStart v.text) = [])) ∧
    (Raises r .invalidDigit ↔
      (v.inSel = 0b01#2 ∧ v.text.length = 32 ∧ ∃ c ∈ v.text, binDigit c = none) ∨
      (v.inSel = 0b10#2 ∧ ∃ c ∈ v.text.drop (hexStart v.text), hexDigit c = none)) ∧
    (Raises r .overflow ↔
      v.inSel = 0b10#2 ∧ (∀ c ∈ v.text.drop (hexStart v.text), (hexDigit c).isSome = true) ∧
        PATTERN_MAX < digitsValue 16 hexDigit (v.text.drop (hexStart v.text))) := by
  obtain ⟨hsel, hr⟩ | ⟨hsel, -, hr⟩ | ⟨hsel, -, hr⟩ | ⟨-, -, hr⟩ | ⟨-, hr⟩ := inputStage_cases c v <;>
    rw [hr] at h <;> cases h
  · simp [hsel]
  · obtain ⟨hlength, hdigit, hoverflow⟩ := parseBin_raises v.text
    simp [hsel, hlength, hdigit, hoverflow]
  · obtain ⟨hlength, hdigit, hoverflow⟩ := parseHex_raises v.text
    rw [hlength, hdigit, hoverflow]
    simp [hsel]

/-- Settles O33: the ports report what the input stage raised, which is what the selected parser raises. -/
theorem formatErrorCausesAreComplete : Obligations.FormatErrorCausesAreComplete := by
  rintro s t v _ rfl rfl h
  obtain ⟨r, hr, rfl⟩ := step_next h
  have hlen : (nextVector s).txtLen = 32#8 ↔ (nextVector s).text.length = 32 := by
    rw [text_length, BitVec.toNat_eq]
    rfl
  obtain ⟨hlength, hdigit, hoverflow⟩ := inputStage_raises hr
  simp only [ne_eq, hlen, ← binDigit_eq_none_iff]
  refine ⟨(settledOutputs_reports_iff r .wrongLength).trans hlength,
    (settledOutputs_reports_iff r .invalidDigit).trans hdigit,
    (settledOutputs_reports_iff r .overflow).trans hoverflow, fun herr => ?_⟩
  cases r with
  | ok p => cases herr
  | error e => exact errorCode_ne_three e.kind

end Sys2Proof.Machine
end

section
/-! PROOFS. The relations between the settled output ports (spec/95_test_vectors.md section 6, 60_exceptions.md R134,
R135) and the invariant of the machine. -/

namespace Sys2Proof.Machine

/-! ### Recorded positions -/

/-- A FormatError carries a position exactly when it is InvalidDigit, and then one below the length of the text
(60_exceptions.md R134). -/
def ParseError.PositionFits (e : ParseError) (length : Nat) : Prop :=
  (e.kind = .invalidDigit ∧ ∃ k, k < length ∧ e.position = some k) ∨ (e.kind ≠ .invalidDigit ∧ e.position = none)

theorem ParseError.PositionFits.isSome_iff {e : ParseError} {length : Nat} (h : ParseError.PositionFits e length) :
    e.position.isSome = true ↔ e.kind = .invalidDigit := by
  obtain ⟨hk, k, -, hpos⟩ | ⟨hk, hpos⟩ := h <;> simp [hk, hpos]

theorem parseBin_positionFits {text : List CharCode} {e : ParseError} (h : parseBin text = .error e) :
    ParseError.PositionFits e text.length := by
  obtain ⟨-, hp⟩ | ⟨hl, k, hk, -, hp⟩ | ⟨-, -, hp⟩ := parseBin_cases text <;> rw [hp] at h <;> cases h
  · exact .inr ⟨by simp, rfl⟩
  · exact .inl ⟨rfl, k, hl ▸ hk, rfl⟩

theorem parseHex_positionFits {text : List CharCode} {e : ParseError} (h : parseHex text = .error e) :
    ParseError.PositionFits e text.length := by
  obtain ⟨k, -, hk, -, hp⟩ | ⟨-, hp⟩ | ⟨-, -, -, hp⟩ | ⟨-, -, -, hp⟩ := parseHex_cases text <;> rw [hp] at h <;> cases h
  · exact .inl ⟨rfl, k, hk, rfl⟩
  · exact .inr ⟨by simp, rfl⟩
  · exact .inr ⟨by simp, rfl⟩

/-- A FormatError of the input stage has a position that fits a text which fits the port. -/
theorem inputStage_error {c : Config} {v : InputVector} {e : ParseError} (h : inputStage c v = some (.error e)) :
    v.txtLen.toNat ≤ c.txtMax ∧ ParseError.PositionFits e v.txtLen.toNat := by
  obtain ⟨-, hr⟩ | ⟨-, hle, hr⟩ | ⟨-, hle, hr⟩ | ⟨-, -, hr⟩ | ⟨-, hr⟩ := inputStage_cases c v <;> rw [hr] at h
  · cases h
  · exact ⟨hle, text_length v ▸ parseBin_positionFits (Option.some.inj h)⟩
  · exact ⟨hle, text_length v ▸ parseHex_positionFits (Option.some.inj h)⟩
  · cases h
  · cases h

/-! ### The settled outputs with and without a pattern -/

/-- Every port of a FormatError transaction but the error ports (60_exceptions.md R135, 42_reconstructor.md R116). -/
theorem settledOutputs_error (e : ParseError) :
    settledOutputs (.error e) =
      { patValid := false, pat := 0x00000000#32, fout := 0x00000000#32, sign := 0#1, exp := 0x00#8,
        mant := 0x000000#23, cls := 0b001#3, unbExp := 0x181#9, mval := 0x3F800000#32, recon := 0x00000000#32,
        reconValid := false, err := true, errKind := errorCode e.kind, errPosValid := e.position.isSome,
        errPos := BitVec.ofNat 8 (e.position.getD 0) } := by
  have hsign : signOf 0#32 = 0#1 := by decide
  have hexp : expOf 0#32 = 0#8 := by decide
  have hmant : mantOf 0#32 = 0#23 := by decide
  have hcls : classOf 0#8 0#23 = .zero := by decide
  have hunb : unbiasedExponent 0#8 = 0x181#9 := by decide
  have hmval : mantissaWord 0#23 = 0x3F800000#32 := by decide
  simp only [settledOutputs, settledPattern, errorPorts, hsign, hexp, hmant, hcls, hunb, hmval, classCode,
    reconstructDrive_invalid]

/-- Settles O34: an error transaction settles R135's outputs, and its kind's code reads back as the kind. -/
theorem formatErrorForcesTheOutputs : Obligations.FormatErrorForcesTheOutputs := by
  intro s t h herr
  obtain ⟨r, -, rfl⟩ := step_next h
  cases r with
  | ok p => cases herr
  | error e =>
    simp only [settledOutputs_error, true_and]
    exact ⟨rfl, by simp [reportedError]⟩

theorem errorCode_le_two (k : FormatErrorKind) : (errorCode k).toNat ≤ 2 := by cases k <;> decide

theorem classCode_le_four (k : Classification) : (classCode k).toNat ≤ 4 := by cases k <;> decide

/-- R112's drive of a valid pattern's own fields: reconstructible for Normal and Denormalized alone, and exact there
(42_reconstructor.md R114). -/
theorem reconstructDrive_of_pattern (p : Word) :
    ((reconstructDrive true (signOf p) (expOf p) (mantOf p) (classCode (classOf (expOf p) (mantOf p)))).2 = true ↔
      classOf (expOf p) (mantOf p) = .normal ∨ classOf (expOf p) (mantOf p) = .denormalized) ∧
    ((reconstructDrive true (signOf p) (expOf p) (mantOf p) (classCode (classOf (expOf p) (mantOf p)))).2 = true →
      (reconstructDrive true (signOf p) (expOf p) (mantOf p) (classCode (classOf (expOf p) (mantOf p)))).1 = p) := by
  rcases hk : classOf (expOf p) (mantOf p)
  case normal => simp [classCode]
  case denormalized =>
    have hexp : expOf p = 0#8 := ((classOf_eq_denormalized _ _).1 hk).1
    have hpack : pack (signOf p) 0#8 (mantOf p) = p := by rw [← hexp, pack_fields]
    simp [classCode, hpack]
  all_goals simp [classCode]

theorem settledOutputs_ok_reconValid_iff (p : Word) :
    (settledOutputs (.ok p)).reconValid = true ↔
      (settledOutputs (.ok p)).cls = 0b000#3 ∨ (settledOutputs (.ok p)).cls = 0b010#3 :=
  (reconstructDrive_of_pattern p).1.trans
    (or_congr (classCode_eq_iff _ .normal).symm (classCode_eq_iff _ .denormalized).symm)

theorem settledOutputs_ok_recon {p : Word} (h : (settledOutputs (.ok p)).reconValid = true) :
    (settledOutputs (.ok p)).recon = p := (reconstructDrive_of_pattern p).2 h

theorem consistent_settledOutputs_ok (p : Word) : Consistent (settledOutputs (.ok p)) where
  fout_eq_pat := rfl
  partition := fields_sum p
  cls_driven := classCode_le_four _
  errKind_driven := Nat.zero_le 2
  err_iff_not_valid := rfl
  err_forces_pat h := by cases h
  no_err_no_kind _ := rfl
  position_iff_invalidDigit := iff_of_false (fun h => by cases h) fun h => by cases h.1
  no_position_is_zero _ := rfl
  reconValid_iff := (settledOutputs_ok_reconValid_iff p).trans (and_iff_right rfl).symm
  recon_eq_pat := settledOutputs_ok_recon

theorem consistent_settledOutputs_error {e : ParseError} {length : Nat} (h : ParseError.PositionFits e length) :
    Consistent (settledOutputs (.error e)) where
  fout_eq_pat := rfl
  partition := fields_sum 0
  cls_driven := classCode_le_four _
  errKind_driven := errorCode_le_two e.kind
  err_iff_not_valid := rfl
  err_forces_pat _ := rfl
  no_err_no_kind h := by cases h
  position_iff_invalidDigit := by
    rw [and_iff_right (show (settledOutputs (.error e)).err = true from rfl)]
    exact h.isSome_iff.trans (errorCode_eq_iff _ .invalidDigit).symm
  no_position_is_zero hnone := by
    have hpos : e.position = none := Option.not_isSome_iff_eq_none.1 (Bool.not_eq_true _ ▸ hnone)
    rw [settledOutputs_error, hpos]
    rfl
  reconValid_iff := iff_of_false (fun h => by cases h) fun h => by cases h.1
  recon_eq_pat h := by cases h

/-- What the input stage finds settles to consistent output ports and a position inside the text. -/
theorem consistent_of_inputStage {c : Config} {v : InputVector} {r : Except ParseError Word}
    (h : inputStage c v = some r) : Consistent (settledOutputs r) ∧
      ((settledOutputs r).errPosValid = true →
        (settledOutputs r).errPos.toNat < v.txtLen.toNat ∧ (settledOutputs r).errPos.toNat < c.txtMax) := by
  cases r with
  | ok p => exact ⟨consistent_settledOutputs_ok p, fun hpos => by cases hpos⟩
  | error e =>
    obtain ⟨hle, hfits⟩ := inputStage_error h
    refine ⟨consistent_settledOutputs_error hfits, fun hpos => ?_⟩
    obtain ⟨-, k, hk, hsome⟩ | ⟨-, hnone⟩ := hfits
    · have hmod : (settledOutputs (.error e)).errPos.toNat = k % 2 ^ 8 := by
        rw [settledOutputs_error, hsome]
        exact BitVec.toNat_ofNat k 8
      have := Nat.mod_le k (2 ^ 8)
      omega
    · rw [settledOutputs_error, hnone] at hpos
      cases hpos

/-- Settles O13: a step settles what the input stage found. -/
theorem stepLeavesConsistentOutputs : Obligations.StepLeavesConsistentOutputs := by
  intro s t h
  obtain ⟨r, hr, rfl⟩ := step_next h
  exact consistent_of_inputStage hr

/-! ### The invariant -/

theorem nextVector_mem (s : State) : nextVector s = s.inp ∨ nextVector s ∈ s.pending := by
  obtain ⟨cfg, inp, out, pending⟩ := s
  cases pending <;> simp [nextVector]

theorem PortsFit.nextVector {s : State} (h : PortsFit s) : (nextVector s).wellFormed s.cfg = true := by
  obtain hinp | hmem := nextVector_mem s
  · rw [hinp]
    exact h.inp
  · exact h.pending _ hmem

/-- Settles O12: the ports of the next state are vectors this state held, and its outputs those of the vector it
presented. -/
theorem stepKeepsTheInvariant : Obligations.StepKeepsTheInvariant := by
  intro s t hinv h
  obtain ⟨hconsistent, hposition⟩ := stepLeavesConsistentOutputs s t h
  obtain ⟨r, hr, rfl⟩ := step_next h
  exact
    { ports :=
        { cfg := hinv.ports.cfg
          inp := hinv.ports.nextVector
          pending := fun v hv => hinv.ports.pending v (List.mem_of_mem_tail hv) }
      settled := eval_of_inputStage hr
      consistent := hconsistent
      position := hposition }

/-- Settles O11: reset holds the outputs that its own input vector settles to. -/
theorem resetMeetsTheInvariant : Obligations.ResetMeetsTheInvariant := by
  have hstage : inputStage State.reset.cfg (nextVector State.reset) = some (.ok 0#32) := rfl
  have hreset : step State.reset = .next State.reset := step_of_inputStage_some hstage
  obtain ⟨hconsistent, hposition⟩ := stepLeavesConsistentOutputs _ _ hreset
  refine ⟨⟨⟨?_, ?_, ?_⟩, ?_, hconsistent, hposition⟩, ?_⟩
  · decide
  · decide
  · decide
  · exact eval_of_inputStage hstage
  · unfold SafeNext
    decide

end Sys2Proof.Machine
end

section
/-! PROOFS. What does not matter in a hexadecimal text (spec/30_encoding.md section 3, 95_test_vectors.md section 6),
how Overflow shows in the digits (40_decomposer.md section 1), and the round trip of the renderings of
30_encoding.md R66. -/

namespace Sys2Proof.Machine

/-! ### Overflow in the digits -/

theorem digitsValue_eq_zero_iff {b : Nat} (hb : b ≠ 0) (digit : CharCode → Option Nat) (cs : List CharCode) :
    digitsValue b digit cs = 0 ↔ ∀ c ∈ cs, (digit c).getD 0 = 0 := by
  induction cs with
  | nil => simp
  | cons c cs ih => simp [digitsValue_cons, ih, hb]

/-- A digit string splits into the digits before the last eight and the last eight, whose value fits a word. -/
theorem hexValue_split (digits : List CharCode) :
    digitsValue 16 hexDigit digits =
        digitsValue 16 hexDigit (digits.take (digits.length - 8)) * 16 ^ (digits.drop (digits.length - 8)).length +
          digitsValue 16 hexDigit (digits.drop (digits.length - 8)) ∧
      digitsValue 16 hexDigit (digits.drop (digits.length - 8)) ≤ PATTERN_MAX := by
  refine ⟨by rw [← digitsValue_append, List.take_append_drop], Nat.le_of_lt_succ ?_⟩
  calc digitsValue 16 hexDigit (digits.drop (digits.length - 8))
      < 16 ^ (digits.drop (digits.length - 8)).length := digitsValue_lt _ _ _ fun c _ => hexDigit_lt c
    _ ≤ 16 ^ 8 := Nat.pow_le_pow_right (by decide) (by rw [List.length_drop]; omega)

/-- A value is above 0xFFFFFFFF exactly when a digit before the last eight is not 0. -/
theorem overflow_iff_early_digit (digits : List CharCode) :
    PATTERN_MAX < digitsValue 16 hexDigit digits ↔
      digitsValue 16 hexDigit (digits.take (digits.length - 8)) ≠ 0 := by
  obtain ⟨hsplit, hlast⟩ := hexValue_split digits
  have hmax : PATTERN_MAX = 16 ^ 8 - 1 := rfl
  obtain hlt | hle := Nat.lt_or_ge 8 digits.length
  · have height : (digits.drop (digits.length - 8)).length = 8 := by rw [List.length_drop]; omega
    rw [height] at hsplit
    omega
  · have hnone : digits.take (digits.length - 8) = [] := by simp [Nat.sub_eq_zero_of_le hle]
    rw [hnone, digitsValue_nil] at hsplit ⊢
    omega

/-- The digits before the last eight have a value other than 0 exactly when one of them is not 0. -/
theorem early_digits_ne_zero_iff {digits : List CharCode} (hall : ∀ c ∈ digits, (hexDigit c).isSome = true) :
    digitsValue 16 hexDigit (digits.take (digits.length - 8)) ≠ 0 ↔
      8 < digits.length ∧ ∃ j, j < digits.length - 8 ∧ hexDigit (digits.getD j 0) ≠ some 0 := by
  have hdigit : ∀ c ∈ digits, ((hexDigit c).getD 0 = 0 ↔ hexDigit c = some 0) := fun c hc => by
    obtain ⟨d, hd⟩ := Option.isSome_iff_exists.1 (hall c hc)
    simp [hd]
  rw [ne_eq, digitsValue_eq_zero_iff (by decide)]
  push Not
  constructor
  · rintro ⟨c, hc, hne⟩
    obtain ⟨j, hj, rfl⟩ := List.mem_take_iff_getElem.1 hc
    have hlt : j < digits.length := by omega
    refine ⟨by omega, j, by omega, ?_⟩
    rwa [List.getD_eq_getElem _ _ hlt, ne_eq, ← hdigit _ (List.getElem_mem hlt)]
  · rintro ⟨-, j, hj, hne⟩
    have hlt : j < digits.length := by omega
    rw [List.getD_eq_getElem _ _ hlt, ne_eq, ← hdigit _ (List.getElem_mem hlt)] at hne
    exact ⟨digits[j], List.mem_take_iff_getElem.2 ⟨j, by omega, rfl⟩, hne⟩

theorem toNat_ofNat_of_le_max {v : Nat} (h : v ≤ PATTERN_MAX) : (BitVec.ofNat 32 v).toNat = v :=
  Nat.mod_eq_of_lt (Nat.lt_succ_of_le h)

/-- Settles O25: with valid digits the parser ends with Overflow or with the value, whose early digits are then 0. -/
theorem overflowIsANonzeroEarlyDigit : Obligations.OverflowIsANonzeroEarlyDigit := by
  rintro s t text _ rfl hne hall h
  obtain ⟨-, rfl⟩ := runText_next h
  rw [← early_digits_ne_zero_iff hall, ← overflow_iff_early_digit]
  obtain hv | hv := Nat.lt_or_ge PATTERN_MAX (digitsValue 16 hexDigit (text.drop (hexStart text)))
  · rw [parseHex_of_overflow hall hv]
    exact ⟨iff_of_true rfl hv, fun _ => rfl, fun herr => (by cases herr)⟩
  · rw [parseHex_of_value hall hne hv]
    refine ⟨iff_of_false (by simp) (Nat.not_lt.2 hv), fun herr => (by cases herr), fun _ => ?_⟩
    have hearly := mt (overflow_iff_early_digit _).2 (Nat.not_lt.2 hv)
    rw [ne_eq, not_not] at hearly
    have hsplit := (hexValue_split (text.drop (hexStart text))).1
    rw [hearly, zero_mul, zero_add] at hsplit
    exact (toNat_ofNat_of_le_max hv).trans hsplit

/-! ### The optional `0x` -/

theorem firstOffending_add (digit : CharCode → Option Nat) (k m : Nat) (cs : List CharCode) :
    firstOffending digit (k + m) cs = (firstOffending digit k cs).map (· + m) := by
  induction cs generalizing k with
  | nil => rfl
  | cons c cs ih =>
    by_cases h : (digit c).isSome = true
    · simp only [firstOffending, h, if_true]
      rw [Nat.add_right_comm, ih]
    · simp [firstOffending, h]

theorem hexStart_prefix {x : CharCode} (hx : x = 0x78#8 ∨ x = 0x58#8) (cs : List CharCode) :
    hexStart (0x30#8 :: x :: cs) = 2 := by
  simp [hexStart, hx]

/-- The error with its position, if it has one, counted two higher. -/
def ParseError.shift (e : ParseError) : ParseError := { e with position := e.position.map (· + 2) }

/-- A leading `0x` or `0X` moves the digits by two, which is all the parser finds changed (30_encoding.md R57). -/
theorem parseHex_prefix {x : CharCode} (hx : x = 0x78#8 ∨ x = 0x58#8) {digits : List CharCode}
    (h : hexStart digits = 0) : parseHex (0x30#8 :: x :: digits) = (parseHex digits).mapError ParseError.shift := by
  have hshift := firstOffending_add hexDigit 0 2 digits
  simp only [parseHex, hexStart_prefix hx, h, List.drop_succ_cons, List.drop_zero]
  rw [Nat.zero_add] at hshift
  rw [hshift]
  cases firstOffending hexDigit 0 digits with
  | some k => rfl
  | none =>
    simp only [Option.map_none]
    split
    · rfl
    · split <;> rfl

/-- Settles O26: the parser finds the same after `0x` or `0X`, with the positions two higher. -/
theorem hexPrefixOnlyShiftsPositions : Obligations.HexPrefixOnlyShiftsPositions := by
  intro s t₁ t₂ x digits _ hx h0 h₁ h₂
  obtain ⟨-, rfl⟩ := runText_next h₁
  obtain ⟨-, rfl⟩ := runText_next h₂
  rw [parseHex_prefix hx h0]
  rcases parseHex digits with ⟨kind, _ | k⟩ | p
  · exact ⟨rfl, rfl, rfl, rfl, rfl, rfl⟩
  · exact ⟨rfl, rfl, rfl, rfl, rfl, BitVec.ofNat_add k 2⟩
  · exact ⟨rfl, rfl, rfl, rfl, rfl, rfl⟩

/-! ### The case of letters -/

/-- `A` to `F` and `X` put in lower case, every other character as it is (30_encoding.md section 3). -/
def lowerCase (c : CharCode) : CharCode :=
  if (0x41 ≤ c.toNat ∧ c.toNat ≤ 0x46) ∨ c = 0x58#8 then c + 0x20#8 else c

theorem hexDigit_lowerCase : ∀ c : CharCode, hexDigit (lowerCase c) = hexDigit c := by decide

theorem lowerCase_eq_zero_iff : ∀ c : CharCode, lowerCase c = 0x30#8 ↔ c = 0x30#8 := by decide

theorem lowerCase_eq_x_iff :
    ∀ c : CharCode, lowerCase c = 0x78#8 ∨ lowerCase c = 0x58#8 ↔ c = 0x78#8 ∨ c = 0x58#8 := by decide

theorem hexStart_map_lowerCase (text : List CharCode) : hexStart (text.map lowerCase) = hexStart text := by
  match text with
  | [] => rfl
  | [_] => rfl
  | a :: b :: _ => simp only [List.map_cons, hexStart, lowerCase_eq_zero_iff, lowerCase_eq_x_iff]

theorem firstOffending_map {digit : CharCode → Option Nat} {f : CharCode → CharCode}
    (h : ∀ c, digit (f c) = digit c) (k : Nat) (cs : List CharCode) :
    firstOffending digit k (cs.map f) = firstOffending digit k cs := by
  induction cs generalizing k with
  | nil => rfl
  | cons c cs ih => simp only [List.map_cons, firstOffending, h, ih]

theorem digitsValue_map {digit : CharCode → Option Nat} {f : CharCode → CharCode}
    (h : ∀ c, digit (f c) = digit c) (b : Nat) (cs : List CharCode) :
    digitsValue b digit (cs.map f) = digitsValue b digit cs := by
  simp only [digitsValue, List.foldl_map, h]

theorem parseHex_map_lowerCase (text : List CharCode) : parseHex (text.map lowerCase) = parseHex text := by
  simp only [parseHex, hexStart_map_lowerCase, ← List.map_drop, firstOffending_map hexDigit_lowerCase,
    digitsValue_map hexDigit_lowerCase, List.length_map]

/-- Settles O27: neither the length nor what the parser finds depends on the case. -/
theorem hexCaseDoesNotMatter : Obligations.HexCaseDoesNotMatter := by
  intro s text
  show runText parseHex (text.map lowerCase) s = runText parseHex text s
  rw [runText, runText, List.length_map, parseHex_map_lowerCase]

/-! ### The renderings -/

/-- The base-`b` digits of a number, most significant first, fold back to the number below `b ^ n`. -/
theorem foldl_digits (b n v : Nat) :
    ((List.range n).map fun k => v / b ^ (n - 1 - k) % b).foldl (fun acc d => b * acc + d) 0 = v % b ^ n := by
  induction n generalizing v with
  | zero => simp [Nat.mod_one]
  | succ n ih =>
    have hinit : (List.range n).map (fun k => v / b ^ (n + 1 - 1 - k) % b) =
        (List.range n).map fun k => v / b / b ^ (n - 1 - k) % b := by
      refine List.map_congr_left fun k hk => ?_
      have hk' : n + 1 - 1 - k = n - 1 - k + 1 := by
        have := List.mem_range.1 hk
        omega
      rw [hk', Nat.div_div_eq_div_mul, pow_succ']
    rw [List.range_succ, List.map_append, List.foldl_append, hinit, ih]
    simp [pow_succ', Nat.mod_mul]
    ring

@[simp] theorem hexDigitsOf_length (digit : Nat → CharCode) (w : Word) : (hexDigitsOf digit w).length = 8 := by
  simp [hexDigitsOf]

section

variable {digit : Nat → CharCode} (hdigit : ∀ d, d < 16 → hexDigit (digit d) = some d)

include hdigit

theorem hexDigit_isSome_of_mem_hexDigitsOf {w : Word} {c : CharCode} (h : c ∈ hexDigitsOf digit w) :
    (hexDigit c).isSome = true := by
  obtain ⟨k, -, rfl⟩ := List.mem_map.1 h
  rw [hdigit _ (Nat.mod_lt _ (by decide))]
  rfl

theorem digitsValue_hexDigitsOf (w : Word) : digitsValue 16 hexDigit (hexDigitsOf digit w) = w.toNat := by
  have hfold := foldl_digits 16 8 w.toNat
  rw [Nat.mod_eq_of_lt (show w.toNat < 16 ^ 8 from w.isLt), List.foldl_map] at hfold
  rw [digitsValue, hexDigitsOf, List.foldl_map]
  simpa only [hdigit _ (Nat.mod_lt _ (by decide)), Option.getD_some] using hfold

end

theorem hexDigit_lowerDigit : ∀ d, d < 16 → hexDigit (lowerDigit d) = some d := by decide

theorem hexDigit_upperDigit : ∀ d, d < 16 → hexDigit (upperDigit d) = some d := by decide

/-- A string of digits does not begin with `0x` or `0X`, since `x` and `X` are no digits. -/
theorem hexStart_eq_zero_of_digits {text : List CharCode} (hall : ∀ c ∈ text, (hexDigit c).isSome = true) :
    hexStart text = 0 := by
  match text, hall with
  | [], _ => rfl
  | [_], _ => rfl
  | a :: b :: _, hall =>
    have hb := hall b (by simp)
    refine if_neg ?_
    rintro ⟨-, rfl | rfl⟩ <;> cases hb

/-- A string of digits is read as its value. -/
theorem parseHex_digits {digits : List CharCode} (hall : ∀ c ∈ digits, (hexDigit c).isSome = true)
    (hne : digits ≠ []) (hv : digitsValue 16 hexDigit digits ≤ PATTERN_MAX) :
    parseHex digits = .ok (BitVec.ofNat 32 (digitsValue 16 hexDigit digits)) := by
  have hdrop : digits.drop (hexStart digits) = digits := by rw [hexStart_eq_zero_of_digits hall, List.drop_zero]
  rw [parseHex_of_value (by rwa [hdrop]) (by rwa [hdrop]) (by rwa [hdrop]), hdrop]

/-- Leading zeros before a rendering of 8 digits are read as nothing (95_test_vectors.md section 6). -/
theorem parseHex_zeros_append {digit : Nat → CharCode} (hdigit : ∀ d, d < 16 → hexDigit (digit d) = some d) (n : Nat)
    (w : Word) : parseHex (List.replicate n 0x30#8 ++ hexDigitsOf digit w) = .ok w := by
  have hzeros : digitsValue 16 hexDigit (List.replicate n 0x30#8) = 0 := by
    refine (digitsValue_eq_zero_iff (by decide) _ _).2 fun c hc => ?_
    rw [List.eq_of_mem_replicate hc]
    rfl
  have hvalue : digitsValue 16 hexDigit (List.replicate n 0x30#8 ++ hexDigitsOf digit w) = w.toNat := by
    rw [digitsValue_append, hzeros, digitsValue_hexDigitsOf hdigit, zero_mul, zero_add]
  have hall : ∀ c ∈ List.replicate n 0x30#8 ++ hexDigitsOf digit w, (hexDigit c).isSome = true := fun c hc => by
    obtain hc | hc := List.mem_append.1 hc
    · rw [List.eq_of_mem_replicate hc]
      rfl
    · exact hexDigit_isSome_of_mem_hexDigitsOf hdigit hc
  rw [parseHex_digits hall (by simp [hexDigitsOf]) (hvalue ▸ Nat.le_of_lt_succ w.isLt), hvalue, BitVec.ofNat_toNat,
    BitVec.setWidth_eq]

theorem parseHex_hexText (w : Word) : parseHex (hexText w) = .ok w := by
  have hdigits : parseHex (hexDigitsOf upperDigit w) = .ok w := parseHex_zeros_append hexDigit_upperDigit 0 w
  have hstart : hexStart (hexDigitsOf upperDigit w) = 0 :=
    hexStart_eq_zero_of_digits fun _ => hexDigit_isSome_of_mem_hexDigitsOf hexDigit_upperDigit
  rw [hexText, parseHex_prefix (.inl rfl) hstart, hdigits]
  rfl

@[simp] theorem hexText_length (w : Word) : (hexText w).length = 10 := by simp [hexText]

theorem parseBin_binText (w : Word) : parseBin (binText w) = .ok w := by
  have hok : (parseBin (binText w)).isOk = true := by
    refine (parseBin_isOk_iff _).2 ⟨binText_length w, fun k hk => ?_⟩
    have hk' : k < (binText w).length := by simpa using hk
    rw [List.getD_eq_getElem _ _ hk']
    exact eq_zero_or_one_of_mem_binText (List.getElem_mem hk')
  rcases hp : parseBin (binText w) with e | p
  · rw [hp] at hok
    cases hok
  · refine congrArg Except.ok (BitVec.eq_of_getLsbD_eq fun j hj => ?_)
    have hbit := getLsbD_of_parseBin_eq_ok hp (k := 31 - j) (by omega)
    rw [List.getD_eq_getElem _ _ (by rw [binText_length]; omega), binText_getElem] at hbit
    rw [show 31 - (31 - j) = j by omega] at hbit
    rw [hbit]
    cases w.getLsbD j <;> rfl

/-- Settles O28: both renderings are read as the word, which ENCODE drives. -/
theorem leadingZerosChangeNothing : Obligations.LeadingZerosChangeNothing := by
  intro s n w hwf hn
  have hfits : (List.replicate n 0x30#8 ++ hexDigitsOf lowerDigit w).length ≤ s.cfg.txtMax := by
    simpa using hn
  have hfits' : (hexText w).length ≤ s.cfg.txtMax := by
    rw [hexText_length]
    omega
  rw [exec_decodeHex_of_le hfits, exec_decodeHex_of_le hfits', parseHex_zeros_append hexDigit_lowerDigit,
    parseHex_hexText]
  exact ⟨rfl, rfl⟩

end Sys2Proof.Machine
end

section
/-! PROOFS. The canonical input vectors of spec/30_encoding.md R54, and the transactions `ENC`, `BINOF` and `HEXOF` they
present (40_decomposer.md section 3). -/

namespace Sys2Proof.Machine

/-! ### Canonical vectors -/

/-- The length of a text that fits the port fits `txt_len` (00_scope.md R9). -/
theorem ofNat_length_toNat {c : Config} {text : List CharCode} (hc : c.wf) (hfits : text.length ≤ c.txtMax) :
    (BitVec.ofNat 8 text.length).toNat = text.length := by
  obtain ⟨-, hmax⟩ := hc
  exact (BitVec.toNat_ofNat _ _).trans (Nat.mod_eq_of_lt (by omega))

/-- The canonical vector of a text operation: its slots give the text back, and the host may present it. -/
theorem textVector_spec {c : Config} {text : List CharCode} (hc : c.wf) (hfits : text.length ≤ c.txtMax)
    {sel : BitVec 2} (hsel : sel ≠ 3#2) (word : Word) :
    let v : InputVector := ⟨sel, word, BitVec.ofNat 8 text.length, padSlots c text⟩
    v.text = text ∧ v.wellFormed c = true ∧ v.legal c = true := by
  have hlen := ofNat_length_toNat hc hfits
  refine ⟨by rw [InputVector.text, hlen, readSlots_padSlots], decide_eq_true (padSlots_length hfits), ?_⟩
  simp only [InputVector.legal, hlen, hfits, decide_true, Bool.or_true, Bool.and_true]
  exact bne_iff_ne.2 hsel

/-- Settles O4: an operation with a selector is ENCODE or carries a text that fits, which its slots give back. -/
theorem portsDecodeEncodeRoundTrip : Obligations.PortsDecodeEncodeRoundTrip := by
  intro c i v hc hwf hv
  cases i with
  | encode w =>
    cases hv
    exact ⟨rfl, decide_eq_true (padSlots_length (Nat.zero_le _)), rfl⟩
  | decodeBin text =>
    cases hv
    obtain ⟨htext, hport⟩ := textVector_spec hc (of_decide_eq_true hwf) (sel := 0b01#2) (by decide) 0
    exact ⟨by rw [decode_eq_decodeBin rfl, htext], hport⟩
  | decodeHex text =>
    cases hv
    obtain ⟨htext, hport⟩ := textVector_spec hc (of_decide_eq_true hwf) (sel := 0b10#2) (by decide) 0
    exact ⟨by rw [decode_eq_decodeHex rfl, htext], hport⟩
  | _ => cases hv

/-! ### The transactions of canonical vectors -/

section

variable {c : Config} {text : List CharCode} {v : InputVector} (hc : c.wf) (hfits : text.length ≤ c.txtMax)

include hc hfits

theorem inputStage_of_encode_decodeBin (hv : encode c (.decodeBin text) = some v) :
    inputStage c v = some (parseBin text) := by
  cases hv
  obtain ⟨htext, -⟩ := textVector_spec hc hfits (sel := 0b01#2) (by decide) 0
  rw [inputStage_of_bin rfl ((ofNat_length_toNat hc hfits).trans_le hfits), htext]

theorem inputStage_of_encode_decodeHex (hv : encode c (.decodeHex text) = some v) :
    inputStage c v = some (parseHex text) := by
  cases hv
  obtain ⟨htext, -⟩ := textVector_spec hc hfits (sel := 0b10#2) (by decide) 0
  rw [inputStage_of_hex rfl ((ofNat_length_toNat hc hfits).trans_le hfits), htext]

end

theorem sampled_step_presentNext {s : State} {v : InputVector} {r : Except ParseError Word}
    (h : inputStage s.cfg v = some r) : sampled (step (presentNext v s)) = some (settledOutputs r) := by
  rw [sampled_step, presentNext_cfg, nextVector_presentNext, eval_of_inputStage h]

section

variable {s : State} {w : Word} {v : InputVector} (hc : s.cfg.wf)

include hc

theorem sampled_step_binof (hv : encode s.cfg (.decodeBin (binText w)) = some v) :
    sampled (step (presentNext v s)) = some (settledOutputs (.ok w)) := by
  have hfits : (binText w).length ≤ s.cfg.txtMax := by
    rw [binText_length]
    omega
  exact parseBin_binText w ▸ sampled_step_presentNext (inputStage_of_encode_decodeBin hc hfits hv)

theorem sampled_step_hexof (hv : encode s.cfg (.decodeHex (hexText w)) = some v) :
    sampled (step (presentNext v s)) = some (settledOutputs (.ok w)) := by
  have hfits : (hexText w).length ≤ s.cfg.txtMax := by
    rw [hexText_length]
    omega
  exact parseHex_hexText w ▸ sampled_step_presentNext (inputStage_of_encode_decodeHex hc hfits hv)

end

/-- Settles O30: each of the three vectors makes the input stage find the word. -/
theorem textRoundTrip : Obligations.TextRoundTrip := by
  intro s w v₀ v₁ v₂ hc h₀ h₁ h₂
  have henc : inputStage s.cfg v₀ = some (.ok w) := by
    cases h₀
    rfl
  exact ⟨settledOutputs (.ok w), sampled_step_presentNext henc, sampled_step_binof hc h₁, sampled_step_hexof hc h₂,
    rfl, rfl, rfl⟩

/-- The value of 95_test_vectors.md P2 (90_conflicts.md C1). -/
theorem f32_pi : f32 0x40490FDB#32 = .number (13176795 / 2 ^ 22) := by
  rw [f32_eq_of_cls (k := .normal) (by decide), show signOf 0x40490FDB#32 = 0#1 by decide,
    show expOf 0x40490FDB#32 = 128#8 by decide, show mantOf 0x40490FDB#32 = 4788187#23 by decide]
  norm_num [fieldsValue, normalValue, signFactor, BIAS]

/-- Settles O31: the two texts are the renderings of one word, whose outputs are those of an accepted pattern. -/
theorem piTextsAgree : Obligations.PiTextsAgree := by
  intro s v₁ v₂ hc h₁ h₂
  have hbin : binText 0x40490FDB#32 = [0x30, 0x31, 0x30, 0x30, 0x30, 0x30, 0x30, 0x30, 0x30, 0x31, 0x30, 0x30, 0x31,
      0x30, 0x30, 0x31, 0x30, 0x30, 0x30, 0x30, 0x31, 0x31, 0x31, 0x31, 0x31, 0x31, 0x30, 0x31, 0x31, 0x30, 0x31,
      0x31] := by decide
  have hhex : hexText 0x40490FDB#32 = [0x30, 0x78, 0x34, 0x30, 0x34, 0x39, 0x30, 0x46, 0x44, 0x42] := by decide
  rw [← hhex] at h₁
  rw [← hbin] at h₂
  have hcls : (settledOutputs (.ok 0x40490FDB#32)).cls = 0b000#3 := by decide
  have hvalid := (settledOutputs_ok_reconValid_iff 0x40490FDB#32).2 (.inl hcls)
  have hrecon := settledOutputs_ok_recon hvalid
  exact ⟨settledOutputs (.ok 0x40490FDB#32), sampled_step_hexof hc h₁, sampled_step_binof hc h₂, rfl, hcls, hvalid,
    hrecon, hrecon ▸ f32_pi⟩

/-- Settles O1: the fixed words, read by evaluation. -/
theorem specWordsDecode : Obligations.SpecWordsDecode := by
  unfold Obligations.SpecWordsDecode
  decide

end Sys2Proof.Machine
end

section
/-! PROOFS. The canonical form of spec/30_encoding.md R54 as a string of bits, written and read. -/

namespace Sys2Proof.Machine

/-! ### The bits of a value -/

theorem natOfBits_bitsOf {n : Nat} (v : BitVec n) : natOfBits (bitsOf v) = v.toNat := by
  have hfold := foldl_digits 2 n v.toNat
  rw [Nat.mod_eq_of_lt v.isLt, List.foldl_map] at hfold
  rw [natOfBits, bitsOf, List.foldl_map]
  simpa only [BitVec.getLsbD, Nat.toNat_testBit] using hfold

theorem natOfBits_cons (b : Bool) (bits : List Bool) :
    natOfBits (b :: bits) = b.toNat * 2 ^ bits.length + natOfBits bits := by
  rw [← List.singleton_append, natOfBits_append]
  simp [natOfBits]

/-- Strings of one length have different values. -/
theorem natOfBits_injective {xs ys : List Bool} (hlen : xs.length = ys.length) (h : natOfBits xs = natOfBits ys) :
    xs = ys := by
  induction xs generalizing ys with
  | nil => exact (List.length_eq_zero_iff.1 hlen.symm).symm
  | cons x xs ih =>
    obtain _ | ⟨y, ys⟩ := ys
    · cases hlen
    · have hlen' : xs.length = ys.length := Nat.succ.inj hlen
      rw [natOfBits_cons, natOfBits_cons, hlen'] at h
      have hx := hlen' ▸ natOfBits_lt xs
      have hy := natOfBits_lt ys
      cases x <;> cases y <;> simp only [Bool.toNat_false, Bool.toNat_true, zero_mul, one_mul, zero_add] at h
      · rw [ih hlen' h]
      · omega
      · omega
      · rw [ih hlen' (Nat.add_left_cancel h)]

/-- A string of `n` bits is the bits of its value. -/
theorem bitsOf_natOfBits {n : Nat} {bits : List Bool} (h : bits.length = n) :
    bitsOf (BitVec.ofNat n (natOfBits bits)) = bits := by
  refine natOfBits_injective (by rw [bitsOf_length, h]) ?_
  rw [natOfBits_bitsOf, BitVec.toNat_ofNat, Nat.mod_eq_of_lt (h ▸ natOfBits_lt bits)]

/-! ### The bits of a text -/

@[simp] theorem flatMap_bitsOf_length (text : List CharCode) : (text.flatMap bitsOf).length = 8 * text.length := by
  induction text with
  | nil => rfl
  | cons c cs ih =>
    simp [ih]
    omega

theorem charsOfBits_flatMap_bitsOf (text : List CharCode) : charsOfBits text.length (text.flatMap bitsOf) = text := by
  induction text with
  | nil => rfl
  | cons c cs ih =>
    rw [List.flatMap_cons, List.length_cons, charsOfBits, List.take_left' (bitsOf_length c),
      List.drop_left' (bitsOf_length c), natOfBits_bitsOf, ih, BitVec.ofNat_toNat, BitVec.setWidth_eq]

theorem charsOfBits_length (n : Nat) (bits : List Bool) : (charsOfBits n bits).length = n := by
  induction n generalizing bits with
  | zero => rfl
  | succ n ih => simp [charsOfBits, ih]

theorem flatMap_bitsOf_charsOfBits {n : Nat} {bits : List Bool} (h : bits.length = 8 * n) :
    (charsOfBits n bits).flatMap bitsOf = bits := by
  induction n generalizing bits with
  | zero => exact (List.length_eq_zero_iff.1 h).symm
  | succ n ih =>
    have htake : (bits.take 8).length = 8 := by rw [List.length_take]; omega
    have hdrop : (bits.drop 8).length = 8 * n := by rw [List.length_drop]; omega
    rw [charsOfBits, List.flatMap_cons, bitsOf_natOfBits htake, ih hdrop, List.take_append_drop]

/-! ### The fields of a canonical form -/

/-- `in_sel ‖ in_word ‖ txt_len ‖ rest` (30_encoding.md R54). -/
def fieldBits (sel : BitVec 2) (word : Word) (len : BitVec 8) (rest : List Bool) : List Bool :=
  bitsOf sel ++ (bitsOf word ++ (bitsOf len ++ rest))

section

variable (sel : BitVec 2) (word : Word) (len : BitVec 8) (rest : List Bool)

theorem fieldBits_length : (fieldBits sel word len rest).length = 42 + rest.length := by
  simp only [fieldBits, List.length_append, bitsOf_length]
  omega

theorem fieldBits_drop_sel : (fieldBits sel word len rest).drop 2 = bitsOf word ++ (bitsOf len ++ rest) :=
  List.drop_left' (bitsOf_length sel)

theorem fieldBits_drop_word : (fieldBits sel word len rest).drop 34 = bitsOf len ++ rest := by
  rw [← List.drop_drop (i := 32) (j := 2), fieldBits_drop_sel, List.drop_left' (bitsOf_length word)]

theorem fieldBits_drop_len : (fieldBits sel word len rest).drop 42 = rest := by
  rw [← List.drop_drop (i := 8) (j := 34), fieldBits_drop_word, List.drop_left' (bitsOf_length len)]

/-- What a string with these fields reads as. -/
theorem parseCanonical_fieldBits :
    parseCanonical (fieldBits sel word len rest) =
      if sel.toNat = 3 then .error .reservedSelector
      else if rest.length ≠ 8 * len.toNat then .error .textLengthMismatch
      else if sel.toNat = 0 then if len.toNat = 0 then .ok (.encode word) else .error .notCanonical
      else if word.toNat ≠ 0 then .error .notCanonical
      else if sel.toNat = 1 then .ok (.decodeBin (charsOfBits len.toNat rest))
      else .ok (.decodeHex (charsOfBits len.toNat rest)) := by
  have hsel : (fieldBits sel word len rest).take 2 = bitsOf sel := List.take_left' (bitsOf_length sel)
  rw [parseCanonical, if_neg (by rw [fieldBits_length]; omega)]
  simp only [hsel, fieldBits_drop_sel, fieldBits_drop_word, fieldBits_drop_len, List.take_left' (bitsOf_length word),
    List.take_left' (bitsOf_length len), natOfBits_bitsOf, BitVec.ofNat_toNat, BitVec.setWidth_eq]

end

/-- A string of at least `n` bits begins with the bits of a value. -/
theorem exists_bitsOf_append {n : Nat} {bits : List Bool} (h : n ≤ bits.length) :
    ∃ (v : BitVec n) (rest : List Bool), bits = bitsOf v ++ rest ∧ n + rest.length = bits.length := by
  refine ⟨BitVec.ofNat n (natOfBits (bits.take n)), bits.drop n, ?_, ?_⟩
  · rw [bitsOf_natOfBits (List.length_take_of_le h), List.take_append_drop]
  · rw [List.length_drop]
    omega

/-- A string long enough for the three fixed fields is their bits and a rest. -/
theorem exists_fieldBits {bits : List Bool} (h : 42 ≤ bits.length) :
    ∃ sel word len rest, bits = fieldBits sel word len rest := by
  obtain ⟨sel, rest₁, rfl, h₁⟩ := exists_bitsOf_append (n := 2) (bits := bits) (by omega)
  obtain ⟨word, rest₂, rfl, h₂⟩ := exists_bitsOf_append (n := 32) (bits := rest₁) (by omega)
  obtain ⟨len, rest₃, rfl, -⟩ := exists_bitsOf_append (n := 8) (bits := rest₂) (by omega)
  exact ⟨sel, word, len, rest₃, rfl⟩

/-! ### The canonical form of each operation -/

theorem canonicalForm_encode (w : Word) : canonicalForm (.encode w) = some (fieldBits 0b00#2 w 0#8 []) := by
  simp [canonicalForm, fieldBits]

theorem canonicalForm_decodeBin (text : List CharCode) :
    canonicalForm (.decodeBin text) =
      some (fieldBits 0b01#2 0#32 (BitVec.ofNat 8 text.length) (text.flatMap bitsOf)) := by
  simp [canonicalForm, fieldBits]

theorem canonicalForm_decodeHex (text : List CharCode) :
    canonicalForm (.decodeHex text) =
      some (fieldBits 0b10#2 0#32 (BitVec.ofNat 8 text.length) (text.flatMap bitsOf)) := by
  simp [canonicalForm, fieldBits]

/-- The fields of a text operation's canonical form read as the text, by the selector. -/
theorem parseCanonical_text {c : Config} {text : List CharCode} (hc : c.wf) (hfits : text.length ≤ c.txtMax)
    {sel : BitVec 2} (hsel : sel = 0b01#2 ∨ sel = 0b10#2) :
    parseCanonical (fieldBits sel 0#32 (BitVec.ofNat 8 text.length) (text.flatMap bitsOf)) =
      .ok (if sel = 0b01#2 then .decodeBin text else .decodeHex text) := by
  rw [parseCanonical_fieldBits, flatMap_bitsOf_length, ofNat_length_toNat hc hfits, charsOfBits_flatMap_bitsOf]
  obtain rfl | rfl := hsel <;> simp

theorem fieldBits_text_length (sel : BitVec 2) (word : Word) (len : BitVec 8) (text : List CharCode) :
    (fieldBits sel word len (text.flatMap bitsOf)).length = 42 + 8 * text.length := by
  rw [fieldBits_length, flatMap_bitsOf_length]

/-- Settles O5: the fields of a canonical form are read one by one, and the rest is cut into the text's characters. -/
theorem canonicalFormRoundTrip : Obligations.CanonicalFormRoundTrip := by
  intro c i bits hc hwf hbits
  cases i with
  | encode w =>
    rw [canonicalForm_encode] at hbits
    cases hbits
    rw [parseCanonical_fieldBits, fieldBits_length]
    exact ⟨rfl, rfl⟩
  | decodeBin text =>
    rw [canonicalForm_decodeBin] at hbits
    cases hbits
    exact ⟨parseCanonical_text hc (of_decide_eq_true hwf) (.inl rfl), fieldBits_text_length _ _ _ _⟩
  | decodeHex text =>
    rw [canonicalForm_decodeHex] at hbits
    cases hbits
    exact ⟨parseCanonical_text hc (of_decide_eq_true hwf) (.inr rfl), fieldBits_text_length _ _ _ _⟩
  | _ => cases hbits

theorem length_of_parseCanonical_ok {bits : List Bool} {i : Instr} (h : parseCanonical bits = .ok i) :
    42 ≤ bits.length := by
  by_contra hshort
  rw [parseCanonical, if_pos (by omega)] at h
  cases h

/-- The characters cut from the rest give back its bits and its length. -/
theorem fieldBits_charsOfBits {sel : BitVec 2} {word : Word} {len : BitVec 8} {rest : List Bool}
    (h : rest.length = 8 * len.toNat) :
    fieldBits sel word (BitVec.ofNat 8 (charsOfBits len.toNat rest).length)
      ((charsOfBits len.toNat rest).flatMap bitsOf) = fieldBits sel word len rest := by
  rw [charsOfBits_length, flatMap_bitsOf_charsOfBits h, BitVec.ofNat_toNat, BitVec.setWidth_eq]

/-- Settles O6: a string that is read is the bits of its fields, and each branch of the reader that answers an
operation fixes them as R54 does. -/
theorem canonicalFormIsUnique : Obligations.CanonicalFormIsUnique := by
  intro bits i h
  obtain ⟨sel, word, len, rest, rfl⟩ := exists_fieldBits (length_of_parseCanonical_ok h)
  rw [parseCanonical_fieldBits] at h
  have hsel : ∀ k : BitVec 2, sel.toNat = k.toNat → sel = k := fun _ => BitVec.eq_of_toNat_eq
  split_ifs at h with hreserved hrest hencode hlen hword hbin <;> cases h
  · have hnil : rest = [] := List.length_eq_zero_iff.1 (by omega)
    have hlen0 : len = 0#8 := BitVec.eq_of_toNat_eq hlen
    rw [canonicalForm_encode, hnil, hlen0, hsel 0b00#2 hencode]
  · have hword0 : word = 0#32 := BitVec.eq_of_toNat_eq (not_not.1 hword)
    rw [canonicalForm_decodeBin, fieldBits_charsOfBits (not_not.1 hrest), hword0, hsel 0b01#2 hbin]
  · have hword0 : word = 0#32 := BitVec.eq_of_toNat_eq (not_not.1 hword)
    have hhex : sel.toNat = (0b10#2).toNat := by
      have := sel.isLt
      simp only [BitVec.toNat_ofNat]
      omega
    rw [canonicalForm_decodeHex, fieldBits_charsOfBits (not_not.1 hrest), hword0, hsel 0b10#2 hhex]

end Sys2Proof.Machine
end

section
/-! PROOFS. How a line of a listing reads, in each of its five forms (spec/30_encoding.md R65, R66). -/

namespace Sys2Proof.Machine

/-! ### The five forms, one lemma per word -/

section

variable (cs : List CharCode)

theorem assemble_ENC : assemble (wordENC ++ cs) = (wholeOperand (readConstant cs)).map .encode := rfl

theorem assemble_BIN : assemble (wordBIN ++ cs) = (wholeOperand (readString .plain cs)).map .decodeBin := rfl

theorem assemble_HEX : assemble (wordHEX ++ cs) = (wholeOperand (readString .plain cs)).map .decodeHex := rfl

theorem assemble_BINOF :
    assemble (wordBINOF ++ cs) = (wholeOperand (readConstant cs)).map fun w => .decodeBin (binText w) := rfl

theorem assemble_HEXOF :
    assemble (wordHEXOF ++ cs) = (wholeOperand (readConstant cs)).map fun w => .decodeHex (hexText w) := rfl

end

/-! ### Constants -/

/-- Reading as many digits as a digit string has folds them onto the value read so far. -/
theorem readDigits_append {digits : List CharCode} (hall : ∀ c ∈ digits, (hexDigit c).isSome = true) (v : Nat)
    (rest : List CharCode) :
    readDigits digits.length v (digits ++ rest) =
      some (digits.foldl (fun v c => 16 * v + (hexDigit c).getD 0) v, rest) := by
  induction digits generalizing v with
  | nil => rfl
  | cons c cs ih =>
    obtain ⟨hc, hcs⟩ := List.forall_mem_cons.1 hall
    obtain ⟨d, hd⟩ := Option.isSome_iff_exists.1 hc
    simp only [List.length_cons, List.cons_append, readDigits, hd, ih hcs, List.foldl_cons, Option.getD_some]

/-- The constant of a word, as R66 renders it, reads as the word. -/
theorem readConstant_hexText (w : Word) : readConstant (hexText w) = some (w, []) := by
  have hread := readDigits_append
    (fun _ => hexDigit_isSome_of_mem_hexDigitsOf (w := w) hexDigit_upperDigit) 0 []
  rw [List.append_nil, hexDigitsOf_length, ← digitsValue, digitsValue_hexDigitsOf hexDigit_upperDigit] at hread
  have hafter : afterWord [0x30#8, 0x78#8] (hexText w) = some (hexDigitsOf upperDigit w) := rfl
  rw [readConstant, hafter]
  simp only [hread, Option.map_some, BitVec.ofNat_toNat, BitVec.setWidth_eq]

theorem wholeOperand_hexText (w : Word) : wholeOperand (readConstant (hexText w)) = some w := by
  rw [readConstant_hexText]
  rfl

/-! ### Strings -/

/-- A string of characters that are neither `"` nor `\` reads as itself, up to its closing `"`. -/
theorem readString_plain {text : List CharCode} (h : ∀ c ∈ text, c ≠ 0x22#8 ∧ c ≠ 0x5C#8) (rest : List CharCode) :
    readString .plain (text ++ 0x22#8 :: rest) = some (text, rest) := by
  induction text with
  | nil => rfl
  | cons c cs ih =>
    obtain ⟨⟨hquote, hescape⟩, hcs⟩ := List.forall_mem_cons.1 h
    rw [List.cons_append, readString, if_neg hquote, if_neg hescape, ih hcs]
    rfl

/-- Such a string, closed and followed by a comment, is a whole operand. -/
theorem wholeOperand_string {text : List CharCode} (h : ∀ c ∈ text, c ≠ 0x22#8 ∧ c ≠ 0x5C#8) :
    wholeOperand (readString .plain (text ++ [0x22#8, 0x20#8, 0x3B#8, 0x20#8])) = some text := by
  rw [readString_plain h]
  rfl

theorem binText_plain {w : Word} {c : CharCode} (h : c ∈ binText w) : c ≠ 0x22#8 ∧ c ≠ 0x5C#8 := by
  obtain rfl | rfl := eq_zero_or_one_of_mem_binText h <;> decide

theorem hexText_plain {w : Word} {c : CharCode} (h : c ∈ hexText w) : c ≠ 0x22#8 ∧ c ≠ 0x5C#8 := by
  obtain _ | ⟨-, _ | ⟨-, h⟩⟩ := h
  · decide
  · decide
  · have hdigit := hexDigit_isSome_of_mem_hexDigitsOf hexDigit_upperDigit h
    constructor <;> rintro rfl <;> cases hdigit

/-- Settles O7: each form reads its operand whole, a constant as its word and a string as its characters. -/
theorem transactionNotationReads : Obligations.TransactionNotationReads := by
  intro w
  refine ⟨?_, ?_, ?_, ?_, ?_⟩
  · rw [assemble_ENC, wholeOperand_hexText, Option.map_some]
  · rw [assemble_BINOF, wholeOperand_hexText, Option.map_some]
  · rw [assemble_HEXOF, wholeOperand_hexText, Option.map_some]
  · rw [List.append_assoc, assemble_BIN, wholeOperand_string fun _ => binText_plain, Option.map_some]
  · rw [List.append_assoc, assemble_HEX, wholeOperand_string fun _ => hexText_plain, Option.map_some]

end Sys2Proof.Machine
end

section
/-! PROOFS. The value reconstructor's operations (spec/42_reconstructor.md R110 to R112), the exactness of its
reconstruction (R114), and what the exact values say of the patterns (00_scope.md R13). -/

namespace Sys2Proof.Machine

/-! ### MANTISSA_VALUE -/

/-- The bits of a number, weighted 1/2, 1/4, … from bit `n - 1` down, are its low `n` bits as a fraction. -/
theorem sum_bit_fractions (n m : Nat) :
    ((List.range n).map fun j => if m.testBit (n - 1 - j) then (2 : ℚ) ^ (-((j : ℤ) + 1)) else 0).sum =
      ((m % 2 ^ n : Nat) : ℚ) / 2 ^ n := by
  induction n generalizing m with
  | zero => simp [Nat.mod_one]
  | succ n ih =>
    have hinit : (List.range n).map (fun j => if m.testBit (n + 1 - 1 - j) then (2 : ℚ) ^ (-((j : ℤ) + 1)) else 0) =
        (List.range n).map fun j => if (m / 2).testBit (n - 1 - j) then (2 : ℚ) ^ (-((j : ℤ) + 1)) else 0 := by
      refine List.map_congr_left fun j hj => ?_
      have hj' : n + 1 - 1 - j = n - 1 - j + 1 := by
        have := List.mem_range.1 hj
        omega
      rw [hj', Nat.testBit_add_one]
    have hlast : (if m.testBit 0 then (2 : ℚ) ^ (-((n : ℤ) + 1)) else 0) = ((m % 2 : Nat) : ℚ) / 2 ^ (n + 1) := by
      obtain h | h := Nat.mod_two_eq_zero_or_one m
      · simp [h]
      · simp [h, ← zpow_natCast, ← zpow_neg]
    rw [List.range_succ, List.map_append, List.sum_append, hinit, ih]
    simp only [List.map_cons, List.map_nil, List.sum_singleton, Nat.add_sub_cancel, Nat.sub_self, hlast]
    rw [show m % 2 ^ (n + 1) = m % 2 + 2 * (m / 2 % 2 ^ n) by rw [pow_succ', Nat.mod_mul]]
    push_cast
    field_simp
    ring

theorem mantissaValue_eq (mant : BitVec 23) : mantissaValue mant = 1 + (mant.toNat : ℚ) / 2 ^ 23 := by
  have hsum := sum_bit_fractions 23 mant.toNat
  rw [Nat.mod_eq_of_lt mant.isLt] at hsum
  exact congrArg (1 + ·) hsum

theorem mantissaWord_eq_or (mant : BitVec 23) : mantissaWord mant = 0x3F800000#32 ||| mant.setWidth 32 := by
  apply BitVec.eq_of_toNat_eq
  have hm := mant.isLt
  have hor := Nat.shiftLeft_add_eq_or_of_lt hm 127
  rw [mantissaWord, pack_toNat, BitVec.toNat_or, BitVec.toNat_setWidth, Nat.mod_eq_of_lt (by omega)]
  exact (by simpa [Nat.shiftLeft_eq] using hor)

theorem exec_mantissaValue (s : State) :
    exec .mantissaValue s = .next (s.mapOut fun o => { o with mval := mantissaWord o.mant }) := rfl

/-- Settles O40: MANTISSA_VALUE drives the mantissa field under the exponent of 1, whose value is the bits' sum. -/
theorem mantissaValueIsExact : Obligations.MantissaValueIsExact := by
  intro s
  refine ⟨_, exec_mantissaValue s, ?_, ?_, mantissaValue_eq _, ?_, ?_⟩
  · rw [← mantissaWord_eq_or]
    rfl
  · rw [mantissaValue_eq]
    exact f32_mantissaWord _
  · rw [mantissaValue_eq]
    exact le_add_of_nonneg_right (by positivity)
  · have hle : (s.out.mant.toNat : ℚ) ≤ 2 ^ 23 - 1 := by
      have := s.out.mant.isLt
      rw [le_sub_iff_add_le]
      exact_mod_cast this
    rw [mantissaValue_eq]
    linarith

/-! ### UNBIASED_EXPONENT -/

theorem exec_unbiasedExponent (s : State) :
    exec .unbiasedExponent s = .next (s.mapOut fun o => { o with unbExp := unbiasedExponent o.exp }) := rfl

/-- Settles O41: the nine bits hold the difference as it is. -/
theorem unbiasedExponentSubtractsTheBias : Obligations.UnbiasedExponentSubtractsTheBias := by
  intro s
  have hexp := s.out.exp.isLt
  have hunb := unbiasedExponent_toInt s.out.exp
  have hlow : (-127 : ℤ) ≤ (s.out.exp.toNat : ℤ) - 127 := by omega
  have hhigh : (s.out.exp.toNat : ℤ) - 127 ≤ 128 := by omega
  exact ⟨_, exec_unbiasedExponent s, rfl, hunb, hlow.trans_eq hunb.symm, hunb.trans_le hhigh⟩

/-! ### RECONSTRUCT -/

theorem reconstructDrive_valid_iff (patValid : Bool) (sign : BitVec 1) (exp : BitVec 8) (mant : BitVec 23)
    (cls : BitVec 3) :
    (reconstructDrive patValid sign exp mant cls).2 = true ↔ patValid = true ∧ (cls = 0b000#3 ∨ cls = 0b010#3) := by
  cases patValid with
  | false => simp
  | true =>
    have hcode : ∀ cls : BitVec 3, cls = 0b000#3 ∨ cls = 0b010#3 ↔
        classOfCode cls = some .normal ∨ classOfCode cls = some .denormalized := by decide
    rw [hcode, reconstructDrive]
    rcases classOfCode cls with _ | _ | _ | _ | _ | _ <;> simp

theorem exec_reconstruct (s : State) :
    exec .reconstruct s =
      .next (s.mapOut fun o =>
        { o with
          recon := (reconstructDrive o.patValid o.sign o.exp o.mant o.cls).1
          reconValid := (reconstructDrive o.patValid o.sign o.exp o.mant o.cls).2 }) := rfl

theorem pack_infinity_toNat (sign : BitVec 1) : (pack sign 255#8 0#23).toNat = sign.toNat * 2 ^ 31 + 0x7F800000 := by
  simp only [pack_toNat, BitVec.toNat_ofNat]
  omega

theorem pack_nan_toNat (sign : BitVec 1) :
    (pack sign 255#8 0x400000#23).toNat = sign.toNat * 2 ^ 31 + 0x7FC00000 := by
  simp only [pack_toNat, BitVec.toNat_ofNat]
  omega

/-- Settles O42: RECONSTRUCT drives R112's pair, whose words are packed fields. -/
theorem reconstructDrivesPerClass : Obligations.ReconstructDrivesPerClass := by
  intro s
  refine ⟨_, exec_reconstruct s, rfl, reconstructDrive_valid_iff _ _ _ _ _, fun hv => ?_, fun hv hc => ?_,
    fun hv hc => ?_, fun hv hc => ?_, fun hv hc => ?_, fun hv hc => ?_⟩ <;> rw [mapOut_out]
  · rw [hv, reconstructDrive_invalid]
  · rw [hv, hc, reconstructDrive_normal, pack_toNat]
  · rw [hv, hc, reconstructDrive_denormalized, pack_toNat]
    simp
  · rw [hv, hc, reconstructDrive_zero, pack_toNat]
    simp
  · rw [hv, hc, reconstructDrive_infinity, pack_infinity_toNat]
  · rw [hv, hc, reconstructDrive_nan, pack_nan_toNat]

/-! ### Exactness -/

/-- A Normal value as an integer times a power of two (42_reconstructor.md R114). -/
theorem normalValue_eq (sign : BitVec 1) (exp : BitVec 8) (mant : BitVec 23) :
    normalValue sign exp mant =
      (-1) ^ sign.toNat * ((2 ^ 23 + mant.toNat : ℕ) : ℚ) * (2 : ℚ) ^ ((exp.toNat : ℤ) - 150) := by
  have hscale : (2 : ℚ) ^ ((exp.toNat : ℤ) - 127) = (2 : ℚ) ^ ((exp.toNat : ℤ) - 150) * 2 ^ 23 := by
    rw [← zpow_natCast, ← zpow_add₀ two_ne_zero]
    congr 1
    push_cast
    ring
  rw [normalValue, signFactor, BIAS, Nat.cast_ofNat, hscale]
  push_cast
  ring

/-- A Denormalized value as an integer times a power of two (42_reconstructor.md R114). -/
theorem denormalizedValue_eq (sign : BitVec 1) (mant : BitVec 23) :
    denormalizedValue sign mant = (-1) ^ sign.toNat * (mant.toNat : ℚ) * (2 : ℚ) ^ (-149 : ℤ) := by
  have hscale : (2 : ℚ) ^ (-126 : ℤ) = (2 : ℚ) ^ (-149 : ℤ) * 2 ^ 23 := by
    rw [← zpow_natCast, ← zpow_add₀ two_ne_zero]
    rfl
  rw [denormalizedValue, signFactor, DENORMAL_EXPONENT, hscale]
  ring

/-- A Normal value through the helper ports: the mantissa value scaled by the unbiased exponent. -/
theorem normalValue_eq_helpers (sign : BitVec 1) (exp : BitVec 8) (mant : BitVec 23) :
    normalValue sign exp mant =
      (-1) ^ sign.toNat * (2 : ℚ) ^ (unbiasedExponent exp).toInt * (1 + (mant.toNat : ℚ) / 2 ^ 23) := by
  rw [unbiasedExponent_toInt]
  rfl

/-- Settles O43: a reconstructed pattern is Normal or Denormalized, and each value is an integer times a power of
two. -/
theorem reconstructionIsExact : Obligations.ReconstructionIsExact := by
  intro s t h hvalid
  obtain ⟨r, -, rfl⟩ := step_next h
  cases r with
  | error e => cases hvalid
  | ok p =>
    have hrecon : (settledOutputs (.ok p)).recon = p := settledOutputs_ok_recon hvalid
    have hmant := (mantOf p).isLt
    simp only [hrecon]
    refine ⟨rfl, ?_, fun hc => ⟨_, f32_mantissaWord (mantOf p), ?_⟩⟩
    · obtain hc | hc := (settledOutputs_ok_reconValid_iff p).1 hvalid
      · refine ⟨2 ^ 23 + (mantOf p).toNat, (expOf p).toNat - 150, by omega,
          .inr ⟨rfl, (classCode_classOf_normal _ _).1 hc⟩, ?_⟩
        rw [f32_eq_of_cls (p := p) (k := .normal) hc, fieldsValue, normalValue_eq]
        rfl
      · refine ⟨(mantOf p).toNat, -149, by omega, .inl rfl, ?_⟩
        rw [f32_eq_of_cls (p := p) (k := .denormalized) hc, fieldsValue, denormalizedValue_eq]
        rfl
    · rw [f32_eq_of_cls (p := p) (k := .normal) hc, fieldsValue, normalValue_eq_helpers]
      rfl

/-! ### The value determines the pattern -/

theorem eq_of_fields {a b : Word} (hsign : signOf a = signOf b) (hexp : expOf a = expOf b)
    (hmant : mantOf a = mantOf b) : a = b := by
  rw [← pack_fields a, hsign, hexp, hmant, pack_fields]

theorem eq_of_beq_one_eq : ∀ {s s' : BitVec 1}, (s == 1#1) = (s' == 1#1) → s = s' := by decide

theorem fields_of_f32_eq_zero {p : Word} {n : Bool} (h : f32 p = .zero n) :
    expOf p = 0#8 ∧ mantOf p = 0#23 ∧ (signOf p == 1#1) = n := by
  rw [f32] at h
  rcases hk : classOf (expOf p) (mantOf p) <;> rw [hk] at h <;> cases h
  obtain ⟨hexp, hmant⟩ := (classOf_eq_zero _ _).1 hk
  exact ⟨hexp, hmant, rfl⟩

theorem fields_of_f32_eq_infinity {p : Word} {n : Bool} (h : f32 p = .infinity n) :
    expOf p = 255#8 ∧ mantOf p = 0#23 ∧ (signOf p == 1#1) = n := by
  rw [f32] at h
  rcases hk : classOf (expOf p) (mantOf p) <;> rw [hk] at h <;> cases h
  obtain ⟨hexp, hmant⟩ := (classOf_eq_infinity _ _).1 hk
  exact ⟨hexp, hmant, rfl⟩

/-- How many times 2^(-149), the smallest denormalized value, a finite pattern's magnitude is. -/
def units (exp mant : Nat) : Nat := if exp = 0 then mant else (2 ^ 23 + mant) * 2 ^ (exp - 1)

theorem units_succ (e m : Nat) : units (e + 1) m = (2 ^ 23 + m) * 2 ^ e := rfl

theorem units_lt (e : Nat) {m : Nat} (hm : m < 2 ^ 23) : units e m < 2 ^ (23 + e) := by
  cases e with
  | zero => exact hm
  | succ e =>
    rw [units_succ, ← Nat.add_assoc, Nat.add_right_comm, pow_add]
    exact Nat.mul_lt_mul_of_pos_right (by omega) (by positivity)

theorem le_units_succ (e m : Nat) : 2 ^ (23 + e) ≤ units (e + 1) m := by
  rw [units_succ, pow_add]
  exact Nat.mul_le_mul_right _ (Nat.le_add_right _ _)

/-- A larger exponent field is a larger magnitude, whatever the mantissa fields. -/
theorem units_lt_of_exp_lt {e e' m : Nat} (m' : Nat) (hm : m < 2 ^ 23) (h : e < e') : units e m < units e' m' := by
  obtain ⟨k, rfl⟩ := Nat.exists_eq_add_of_lt h
  calc units e m < 2 ^ (23 + e) := units_lt e hm
    _ ≤ 2 ^ (23 + (e + k)) := Nat.pow_le_pow_right (by decide) (by omega)
    _ ≤ units (e + k + 1) m' := le_units_succ _ _

theorem units_injective {e e' m m' : Nat} (hm : m < 2 ^ 23) (hm' : m' < 2 ^ 23) (h : units e m = units e' m') :
    e = e' ∧ m = m' := by
  obtain hlt | rfl | hgt := Nat.lt_trichotomy e e'
  · exact absurd h (units_lt_of_exp_lt m' hm hlt).ne
  · refine ⟨rfl, ?_⟩
    cases e with
    | zero => exact h
    | succ e =>
      rw [units_succ, units_succ] at h
      exact Nat.add_left_cancel (Nat.eq_of_mul_eq_mul_right (by positivity) h)
  · exact absurd h (units_lt_of_exp_lt m hm' hgt).ne'

/-- A finite value is its sign times a positive number of units. -/
theorem units_of_f32_eq_number {p : Word} {v : ℚ} (h : f32 p = .number v) :
    0 < units (expOf p).toNat (mantOf p).toNat ∧
      v = signFactor (signOf p) * ((units (expOf p).toNat (mantOf p).toNat : ℚ) * (2 : ℚ) ^ (-149 : ℤ)) := by
  rw [f32] at h
  rcases hk : classOf (expOf p) (mantOf p) <;> rw [hk] at h <;> cases h
  case normal =>
    obtain ⟨hpos, -⟩ := (classOf_eq_normal _ _).1 hk
    obtain ⟨e, he⟩ := Nat.exists_eq_add_of_le' hpos
    have hscale : (2 : ℚ) ^ (((e + 1 : ℕ) : ℤ) - 150) = 2 ^ e * 2 ^ (-149 : ℤ) := by
      rw [← zpow_natCast, ← zpow_add₀ two_ne_zero]
      congr 1
      push_cast
      ring
    rw [normalValue_eq, he, units_succ, hscale, signFactor]
    refine ⟨by positivity, ?_⟩
    push_cast
    ring
  case denormalized =>
    obtain ⟨hexp, hmant⟩ := (classOf_eq_denormalized _ _).1 hk
    have hunits : units (expOf p).toNat (mantOf p).toNat = (mantOf p).toNat := by rw [hexp]; rfl
    rw [hunits, denormalizedValue_eq, signFactor, mul_assoc]
    exact ⟨Nat.pos_of_ne_zero fun h0 => hmant (BitVec.eq_of_toNat_eq h0), rfl⟩

theorem signFactor_cases (sign : BitVec 1) :
    (sign = 0#1 ∧ signFactor sign = 1) ∨ (sign = 1#1 ∧ signFactor sign = -1) := by
  have hsign : ∀ s : BitVec 1, s = 0#1 ∨ s = 1#1 := by decide
  obtain rfl | rfl := hsign sign <;> simp [signFactor]

/-- A sign and a positive magnitude are determined by their product. -/
theorem sign_magnitude_injective {s s' : BitVec 1} {x y : ℚ} (hx : 0 < x) (hy : 0 < y)
    (h : signFactor s * x = signFactor s' * y) : s = s' ∧ x = y := by
  obtain ⟨rfl, hs⟩ | ⟨rfl, hs⟩ := signFactor_cases s <;> obtain ⟨rfl, hs'⟩ | ⟨rfl, hs'⟩ := signFactor_cases s' <;>
    simp only [hs, hs'] at h
  · exact ⟨rfl, by linarith⟩
  · linarith
  · linarith
  · exact ⟨rfl, by linarith⟩

/-- Settles O45: a signed zero and a signed infinity fix all three fields; a finite value fixes its sign and its
number of units, which fix the fields. -/
theorem valueDeterminesThePattern : Obligations.ValueDeterminesThePattern := by
  intro a b h hnan
  rcases hv : f32 a with v | n | n | _ <;> rw [hv] at h hnan
  · obtain ⟨hapos, hav⟩ := units_of_f32_eq_number hv
    obtain ⟨hbpos, hbv⟩ := units_of_f32_eq_number h.symm
    obtain ⟨hsign, hmag⟩ := sign_magnitude_injective (by positivity) (by positivity) (hav.symm.trans hbv)
    have hunits := mul_right_cancel₀ (zpow_ne_zero _ two_ne_zero) hmag
    obtain ⟨hexp, hmant⟩ := units_injective (mantOf a).isLt (mantOf b).isLt (Nat.cast_injective hunits)
    exact eq_of_fields hsign (BitVec.eq_of_toNat_eq hexp) (BitVec.eq_of_toNat_eq hmant)
  · obtain ⟨haexp, hamant, hasign⟩ := fields_of_f32_eq_zero hv
    obtain ⟨hbexp, hbmant, hbsign⟩ := fields_of_f32_eq_zero h.symm
    exact eq_of_fields (eq_of_beq_one_eq (hasign.trans hbsign.symm)) (haexp.trans hbexp.symm)
      (hamant.trans hbmant.symm)
  · obtain ⟨haexp, hamant, hasign⟩ := fields_of_f32_eq_infinity hv
    obtain ⟨hbexp, hbmant, hbsign⟩ := fields_of_f32_eq_infinity h.symm
    exact eq_of_fields (eq_of_beq_one_eq (hasign.trans hbsign.symm)) (haexp.trans hbexp.symm)
      (hamant.trans hbmant.symm)
  · exact absurd rfl hnan

end Sys2Proof.Machine
end

section
/-! PROOFS. The sizes of the five classes (spec/41_classifier.md, inferred there). -/

namespace Sys2Proof.Machine

theorem card_bitVec (n : Nat) : (Finset.univ : Finset (BitVec n)).card = 2 ^ n := by
  rw [Finset.card_univ, Fintype.card_congr BitVec.equivFin.toEquiv, Fintype.card_fin]

/-- The values of a width other than one of them. -/
theorem card_bitVec_erase {n : Nat} (v : BitVec n) : ((Finset.univ : Finset (BitVec n)).erase v).card = 2 ^ n - 1 := by
  rw [Finset.card_erase_of_mem (Finset.mem_univ v), card_bitVec]

/-- A class whose exponent fields are those in `exps` and whose mantissa fields are those in `mants`. -/
theorem card_class {k : Classification} (exps : Finset (BitVec 8)) (mants : Finset (BitVec 23))
    (h : ∀ exp mant, classOf exp mant = k ↔ exp ∈ exps ∧ mant ∈ mants) :
    Nat.card {p : BitVec 8 × BitVec 23 // classOf p.1 p.2 = k} = exps.card * mants.card := by
  rw [Nat.subtype_card (exps ×ˢ mants) fun p => by rw [Finset.mem_product, h], Finset.card_product]

theorem classOf_eq_normal_iff_ne (exp : BitVec 8) (mant : BitVec 23) :
    classOf exp mant = .normal ↔ exp ≠ 0#8 ∧ exp ≠ 255#8 := by
  have hexp := exp.isLt
  rw [classOf_eq_normal, ne_eq, ne_eq, BitVec.toNat_eq, BitVec.toNat_eq]
  simp only [BitVec.toNat_ofNat]
  omega

/-- Settles O38: each class is a product of a set of exponent fields and a set of mantissa fields. -/
theorem classSizes : Obligations.ClassSizes := by
  have hmiddle : ((Finset.univ.erase 0#8).erase 255#8).card = 254 := by
    rw [Finset.card_erase_of_mem (by simp), card_bitVec_erase]
    rfl
  refine ⟨?_, ?_, ?_, ?_, ?_⟩
  · rw [card_class ((Finset.univ.erase 0#8).erase 255#8) Finset.univ fun exp mant => by
      simp [classOf_eq_normal_iff_ne, and_comm], hmiddle, card_bitVec]
  · rw [card_class {0#8} {0#23} fun exp mant => by simp [classOf_eq_zero], Finset.card_singleton,
      Finset.card_singleton]
  · rw [card_class {0#8} (Finset.univ.erase 0#23) fun exp mant => by simp [classOf_eq_denormalized],
      Finset.card_singleton, card_bitVec_erase, one_mul]
  · rw [card_class {255#8} {0#23} fun exp mant => by simp [classOf_eq_infinity], Finset.card_singleton,
      Finset.card_singleton]
  · rw [card_class {255#8} (Finset.univ.erase 0#23) fun exp mant => by simp [classOf_eq_nan],
      Finset.card_singleton, card_bitVec_erase, one_mul]

end Sys2Proof.Machine
end
